-- ==== Sys2Proof/Word.lean ====
section
/-! DEFINITION. The bit-vector types of the spec: the byte the block reads, the 16-bit field, the 3-bit index and the one-bit field (spec/00_scope.md R7, R8). -/

namespace Sys2Proof

/-- A byte of the stream, bit 7 most significant (R8). -/
abbrev Byte := BitVec 8

/-- A 2-byte field: a direct address, a displacement or an immediate (R43). -/
abbrev Word16 := BitVec 16

/-- A one-bit field, `d` or `w` (R8). -/
abbrev Bit := BitVec 1

/-- A 3-bit index: the `reg`, `rm` and `regi` fields (R27, R63, R65). -/
abbrev Index := BitVec 3

end Sys2Proof
end

