-- ==== Sys2Proof/Config.lean ====
section
/-! DEFINITION. What an implementation fixes and the spec leaves OPEN (spec/00_scope.md R7). -/

namespace Sys2Proof

/-- `POS_BITS`, the width of a hardware stream-position counter: a parameter left OPEN
(spec/10_state.md R23; 93_implementation_defined.md I10). It has no value here, so a claim holds
for every width. Log 5. -/
opaque Config.posBits : Nat

end Sys2Proof
end

