-- ==== Sys2Proof/Syntax.lean ====
section
/-! DEFINITION. The instructions as syntax: one constructor per row of spec/opcode_table.json, over the operand fields its
encoding carries (spec/30_encoding.md R57, R58). -/

namespace Sys2Proof

/-- The register-or-memory field of an F-RM instruction, one constructor per case of the addressing-mode resolver
(spec/41_mov_rm_reg.md R97). Displacements and addresses are the raw bits of the instruction. -/
inductive RmForm where
  /-- mod = 11: the register `rm` (R101). -/
  | reg (rm : Index)
  /-- mod = 00, rm ≠ 110: a base expression alone (R102). -/
  | base (rm : Index)
  /-- mod = 00, rm = 110: the direct address (R103). -/
  | direct (addr : Word16)
  /-- mod = 01: a base expression and one displacement byte (R104). -/
  | baseDisp8 (rm : Index) (disp : Byte)
  /-- mod = 10: a base expression and a 2-byte displacement (R105). -/
  | baseDisp16 (rm : Index) (disp : Word16)
  deriving DecidableEq, Repr

/-- The six instructions of the opcode table. -/
inductive Instr where
  /-- `mov r/m8, r8`, opcode 0x88 (R109). -/
  | movRm8R8 (dst : RmForm) (reg : Index)
  /-- `mov r/m16, r16`, opcode 0x89 (R110). -/
  | movRm16R16 (dst : RmForm) (reg : Index)
  /-- `mov r8, r/m8`, opcode 0x8A (R111). -/
  | movR8Rm8 (reg : Index) (src : RmForm)
  /-- `mov r16, r/m16`, opcode 0x8B (R112). -/
  | movR16Rm16 (reg : Index) (src : RmForm)
  /-- `mov r8, imm8`, opcodes 0xB0 to 0xB7 (R123). -/
  | movR8Imm8 (reg : Index) (imm : Byte)
  /-- `mov r16, imm16`, opcodes 0xB8 to 0xBF (R124). -/
  | movR16Imm16 (reg : Index) (imm : Word16)
  deriving DecidableEq, Repr

end Sys2Proof
end

