-- ==== Sys2Proof/WellFormed.lean ====
section
/-! DEFINITION. Which syntax terms stand for an encoding. The one constraint of the two formats: mod = 00 with rm = 110 is the
direct address, so a base expression without displacement never has the index 110 (spec/41_mov_rm_reg.md R99, R102, R103). -/

namespace Sys2Proof

/-- A base expression alone has rm ≠ 110 (R102); every other form is unconstrained (30_encoding.md R71). -/
def RmForm.wellFormed : RmForm → Bool
  | .reg _ => true
  | .base rm => rm != 6#3
  | .direct _ => true
  | .baseDisp8 _ _ => true
  | .baseDisp16 _ _ => true

/-- Every field value of the two formats is legal (30_encoding.md R71), so only the r/m form is checked. -/
def Instr.wellFormed : Instr → Bool
  | .movRm8R8 dst _ => dst.wellFormed
  | .movRm16R16 dst _ => dst.wellFormed
  | .movR8Rm8 _ src => src.wellFormed
  | .movR16Rm16 _ src => src.wellFormed
  | .movR8Imm8 _ _ => true
  | .movR16Imm16 _ _ => true

end Sys2Proof
end

