-- ==== Sys2Proof/Decode.lean ====
section
/-! DEFINITION. The opcode classifier, the bitfield extractors, the length rule, the decoder and the encoder
(spec/30_encoding.md; 20_memory.md R43). -/

namespace Sys2Proof

/-! ## Opcode classifier -/

/-- The classifier's three results (R59). -/
inductive OpClass where
  /-- The register/memory family `100010dw`. -/
  | rm
  /-- The immediate-to-register family `1011wrrr`. -/
  | imm
  /-- No recognized opcode. -/
  | none
  deriving DecidableEq, Repr

/-- One row of the opcode-dispatch table: a family's mask and pattern (R61). -/
structure OpcodeRow where
  mask : Byte
  pattern : Byte
  family : OpClass
  deriving DecidableEq, Repr

/-- The dispatch table keyed by mask and pattern, in the order of R59. -/
def opcodeTable : List OpcodeRow :=
  [ { mask := 0xFC#8, pattern := 0x88#8, family := .rm },
    { mask := 0xF0#8, pattern := 0xB0#8, family := .imm } ]

/-- The family of the first row that matches `b` (R59, R61). -/
def firstMatch : List OpcodeRow → Byte → OpClass
  | [], _ => .none
  | row :: rows, b => if b &&& row.mask = row.pattern then row.family else firstMatch rows b

/-- The opcode classifier `cls` (R59); it reads only the byte it is given (R60). -/
def cls (b : Byte) : OpClass := firstMatch opcodeTable b

/-! ## Bitfield extractors -/

/-- `d(opc) = opc[1]`: 1 when the reg field names the destination (R62). -/
def fieldD (opc : Byte) : Bit := opc.extractLsb' 1 1

/-- `w(opc) = opc[0]` of an F-RM opcode byte (R62). -/
def fieldW (opc : Byte) : Bit := opc.extractLsb' 0 1

/-- `mod(m) = m[7:6]` (R63). -/
def fieldMod (m : Byte) : BitVec 2 := m.extractLsb' 6 2

/-- `reg(m) = m[5:3]` (R63). -/
def fieldReg (m : Byte) : Index := m.extractLsb' 3 3

/-- `rm(m) = m[2:0]` (R63). -/
def fieldRm (m : Byte) : Index := m.extractLsb' 0 3

/-- `wi(opc) = opc[3]` of an F-IMM opcode byte (R65). -/
def fieldWi (opc : Byte) : Bit := opc.extractLsb' 3 1

/-- `regi(opc) = opc[2:0]` of an F-IMM opcode byte (R65). -/
def fieldRegi (opc : Byte) : Index := opc.extractLsb' 0 3

/-! ## Byte order -/

/-- `{hi, lo}` (00_scope.md R9): the 16-bit field of two bytes, the low one first in the stream (20_memory.md R43). -/
def join (hi lo : Byte) : Word16 := hi ++ lo

/-- Bits 7..0 of a 16-bit field. -/
def lowByte (v : Word16) : Byte := v.extractLsb' 0 8

/-- Bits 15..8 of a 16-bit field. -/
def highByte (v : Word16) : Byte := v.extractLsb' 8 8

/-! ## Instruction length -/

/-- `extra(m)`: how many bytes follow the mod-reg-rm byte (R64). -/
def extra (m : Byte) : Nat :=
  if fieldMod m = 0b00#2 then (if fieldRm m = 0b110#3 then 2 else 0)
  else if fieldMod m = 0b01#2 then 1
  else if fieldMod m = 0b10#2 then 2
  else 0

/-- `len(opc, m)` of an F-RM instruction (R64). -/
def lengthRm (m : Byte) : Nat := 2 + extra m

/-- `len(opc)` of an F-IMM instruction (R64). -/
def lengthImm (opc : Byte) : Nat := 2 + (fieldWi opc).toNat

/-- How many bytes an r/m form takes after the mod-reg-rm byte (41_mov_rm_reg.md R97). -/
def RmForm.extraBytes : RmForm → Nat
  | .reg _ => 0
  | .base _ => 0
  | .direct _ => 2
  | .baseDisp8 _ _ => 1
  | .baseDisp16 _ _ => 2

/-- The number of bytes an instruction occupies (R64). -/
def Instr.length : Instr → Nat
  | .movRm8R8 dst _ => 2 + dst.extraBytes
  | .movRm16R16 dst _ => 2 + dst.extraBytes
  | .movR8Rm8 _ src => 2 + src.extraBytes
  | .movR16Rm16 _ src => 2 + src.extraBytes
  | .movR8Imm8 _ _ => 2
  | .movR16Imm16 _ _ => 3

/-! ## Decoder -/

/-- The two error kinds (60_exceptions.md R146). -/
inductive ErrKind where
  /-- The leading byte matches no known pattern. -/
  | unrecognizedOpcode
  /-- The stream ends before all bytes the pattern and mod require. -/
  | truncatedInstruction
  deriving DecidableEq, Repr

/-- What the decoder makes of a sequence of bytes: an instruction and the bytes after it, the normal end at an
instruction boundary, or a rejection by name with the leading byte. -/
inductive DecodeResult where
  | ok (i : Instr) (rest : List Byte)
  | endOfStream
  | error (k : ErrKind) (b0 : Byte)
  deriving DecidableEq, Repr

/-- The r/m form of a mod-reg-rm byte and the bytes after it, with the bytes left over; nothing when too few bytes
follow (41_mov_rm_reg.md R101 to R105). -/
def decodeRmForm (m : Byte) (ext : List Byte) : Option (RmForm × List Byte) :=
  if fieldMod m = 0b11#2 then some (.reg (fieldRm m), ext)
  else if fieldMod m = 0b00#2 then
    if fieldRm m = 0b110#3 then
      match ext with
      | a0 :: a1 :: rest => some (.direct (join a1 a0), rest)
      | _ => none
    else some (.base (fieldRm m), ext)
  else if fieldMod m = 0b01#2 then
    match ext with
    | b :: rest => some (.baseDisp8 (fieldRm m) b, rest)
    | [] => none
  else
    match ext with
    | b0 :: b1 :: rest => some (.baseDisp16 (fieldRm m) (join b1 b0), rest)
    | _ => none

/-- The F-RM instruction of an opcode byte's d and w bits (41_mov_rm_reg.md R92). -/
def rmInstr (opc : Byte) (reg : Index) (x : RmForm) : Instr :=
  if fieldD opc = 0#1 then
    if fieldW opc = 0#1 then .movRm8R8 x reg else .movRm16R16 x reg
  else
    if fieldW opc = 0#1 then .movR8Rm8 reg x else .movR16Rm16 reg x

/-- The F-RM instruction whose opcode byte is `opc`, from the bytes after it (R57). -/
def decodeRm (opc : Byte) : List Byte → DecodeResult
  | [] => .error .truncatedInstruction opc
  | m :: ext =>
    match decodeRmForm m ext with
    | some (x, rest) => .ok (rmInstr opc (fieldReg m) x) rest
    | none => .error .truncatedInstruction opc

/-- The F-IMM instruction whose opcode byte is `opc`, from the bytes after it (R58, R66). -/
def decodeImm (opc : Byte) (ext : List Byte) : DecodeResult :=
  if fieldWi opc = 0#1 then
    match ext with
    | i0 :: rest => .ok (.movR8Imm8 (fieldRegi opc) i0) rest
    | [] => .error .truncatedInstruction opc
  else
    match ext with
    | i0 :: i1 :: rest => .ok (.movR16Imm16 (fieldRegi opc) (join i1 i0)) rest
    | _ => .error .truncatedInstruction opc

/-- The decoder: the instruction at the front of a byte sequence (40_decode_sequencer.md R88). Total; a first byte outside
the two families and a sequence that ends too early are rejected by name (R72; 60_exceptions.md R146). -/
def decode : List Byte → DecodeResult
  | [] => .endOfStream
  | b0 :: rest =>
    match cls b0 with
    | .none => .error .unrecognizedOpcode b0
    | .rm => decodeRm b0 rest
    | .imm => decodeImm b0 rest

/-! ## Encoder -/

/-- The mod field of an r/m form (41_mov_rm_reg.md R97). -/
def RmForm.modBits : RmForm → BitVec 2
  | .reg _ => 0b11#2
  | .base _ => 0b00#2
  | .direct _ => 0b00#2
  | .baseDisp8 _ _ => 0b01#2
  | .baseDisp16 _ _ => 0b10#2

/-- The rm field of an r/m form (41_mov_rm_reg.md R97). -/
def RmForm.rmBits : RmForm → Index
  | .reg rm => rm
  | .base rm => rm
  | .direct _ => 0b110#3
  | .baseDisp8 rm _ => rm
  | .baseDisp16 rm _ => rm

/-- The bytes of an r/m form after the mod-reg-rm byte, low byte first (R57; 20_memory.md R43). -/
def RmForm.encodeExtra : RmForm → List Byte
  | .reg _ => []
  | .base _ => []
  | .direct a => [lowByte a, highByte a]
  | .baseDisp8 _ b => [b]
  | .baseDisp16 _ v => [lowByte v, highByte v]

/-- The mod-reg-rm byte `mod(2) reg(3) rm(3)` (R57). -/
def encodeModrm (reg : Index) (x : RmForm) : Byte := x.modBits ++ reg ++ x.rmBits

/-- The bytes of an instruction in stream order, from the formats F-RM and F-IMM (R57, R58, R70). -/
def encode : Instr → List Byte
  | .movRm8R8 dst reg => 0b10001000#8 :: encodeModrm reg dst :: dst.encodeExtra
  | .movRm16R16 dst reg => 0b10001001#8 :: encodeModrm reg dst :: dst.encodeExtra
  | .movR8Rm8 reg src => 0b10001010#8 :: encodeModrm reg src :: src.encodeExtra
  | .movR16Rm16 reg src => 0b10001011#8 :: encodeModrm reg src :: src.encodeExtra
  | .movR8Imm8 reg imm => [0b10110#5 ++ reg, imm]
  | .movR16Imm16 reg imm => [0b10111#5 ++ reg, lowByte imm, highByte imm]

/-! ## Words of the opcode table -/

/-- The four bytes, the longest instruction (R64), of a word numbered as spec/opcode_table.json numbers it: the byte at the
lowest offset in the low bits, every bit from `nbits` up zero. Log 15. -/
def tableBytes (nbits w : Nat) : List Byte :=
  let v := w % 2 ^ nbits
  [BitVec.ofNat 8 v, BitVec.ofNat 8 (v / 2 ^ 8), BitVec.ofNat 8 (v / 2 ^ 16), BitVec.ofNat 8 (v / 2 ^ 24)]

/-- The instruction the decoder reads from a word of the opcode table. -/
def decodeTableWord (nbits w : Nat) : Option Instr :=
  match decode (tableBytes nbits w) with
  | .ok i _ => some i
  | .endOfStream => none
  | .error _ _ => none

end Sys2Proof
end

