-- ==== Sys2Proof/Machine/State.lean ====
section
/-! DEFINITION. The machine's state as plain data, the events it takes and gives, the decoded record, the reasons a step can
stop, and the state after reset (spec/10_state.md; 20_memory.md R41; 60_exceptions.md R146). -/

namespace Sys2Proof.Machine

/-! ## Sequencer state -/

/-- `st`, the twelve sequencer states, each named by the byte it awaits (R21). -/
inductive SeqState where
  | op | modrm | d8 | d16L | d16H | a16L | a16H | i8 | i16L | i16H | done | err
  deriving DecidableEq, Repr

/-! ## Decoded record -/

/-- The displacement of a memory operand, as its raw bits (R32). -/
inductive Disp where
  | noDisp
  | disp8 (b : Byte)
  | disp16 (v : Word16)
  deriving DecidableEq, Repr

/-- The four operand variants (R32). -/
inductive Operand where
  | register (w : Bit) (i : Index)
  | directMemory (a : Word16)
  | indexedMemory (k : Index) (disp : Disp)
  | immediate (w : Bit) (v : Word16)
  deriving DecidableEq, Repr

/-- The mnemonic of a record: always `mov` (R33). -/
inductive Mnemonic where
  | mov
  deriving DecidableEq, Repr

/-- The record the block produces for one instruction (R33). -/
structure DecodedInstruction where
  mnemonic : Mnemonic
  w : Bit
  dst : Operand
  src : Operand
  len : Nat
  deriving DecidableEq, Repr

/-! ## Events -/

/-- A step's input event (R16). -/
inductive Event where
  /-- The next byte of the ByteSource. -/
  | byte (b : Byte)
  /-- The ByteSource is exhausted. -/
  | eos
  deriving DecidableEq, Repr

/-- A step's output event (R18). -/
inductive OutEvent where
  /-- The step consumed a byte of an instruction that is not yet complete. -/
  | none
  /-- The step consumed the last byte of an instruction. -/
  | instr (r : DecodedInstruction)
  /-- The step detected an error; `opc` is the leading byte of the failing instruction. -/
  | error (k : ErrKind) (opc : Byte)
  /-- The step consumed `EOS` at an instruction boundary: the spec's `End`. -/
  | endOfStream
  deriving DecidableEq, Repr

/-! ## State -/

/-- The ByteSource (20_memory.md R41): its bytes by offset. Canonical form, `Memory.wf`: the offsets are 0, 1, ..., n-1 in
order. An unlisted offset holds no byte; reading it means the stream has ended. Log 17. -/
abbrev Memory := List Host.Cell

/-- Everything the spec gives the machine. The `out_*` signals and `in_ready` are views of `out` and `st`
(`Machine/Signals.lean`, `Machine/Flags.lean`); the two ROMs are constants (R31). -/
structure State where
  /-- Sequencer state (R21). -/
  st : SeqState
  /-- Latch of the opcode byte (R22). -/
  opc : Byte
  /-- Latch of the mod-reg-rm byte (R22). -/
  modrm : Byte
  /-- Latch of the low byte of a 2-byte field (R22). -/
  lo : Byte
  /-- Stream position: bytes consumed since reset (R23). -/
  pos : Nat
  /-- The output event of the last step (R18, R19). Log 16. -/
  out : OutEvent
  /-- The byte sequence the driver presents, byte `k` at offset `k` (20_memory.md R41). Log 1. -/
  source : Memory
  deriving DecidableEq, Repr

/-- Why a step stops with no next state. -/
inductive Fault where
  /-- Raised by a step in `DONE`: no step is enabled there (40_decode_sequencer.md R80; 93_implementation_defined.md I6).
  Safe: the block takes no step either. Log 7. -/
  | stepInDone
  /-- Raised by a step in `ERR`: no step is enabled there until reset (R80; 60_exceptions.md R152; I2). Safe. Log 7. -/
  | stepInErr
  /-- Raised by a step that would complete an instruction when the bytes in flight with the byte consumed are not exactly one
  instruction: `build_rm` and `build_imm` have no value there (R107, R121). Safe: no run reaches it (R25). Log 8. -/
  | incoherentLatches
  deriving DecidableEq, Repr

/-- Why the model gives an instruction no meaning. -/
inductive Refusal where
  /-- Raised by `exec` for an instruction whose meaning is not written yet; no arm of `exec` raises it now. Safe. -/
  | notModelled (mnemonic : String)
  deriving DecidableEq, Repr

/-- The state after reset (R40; 70_reset_and_hazards.md R166). The ByteSource, which reset does not touch, is empty: no stream
has been presented. Log 2. -/
def State.reset : State where
  st := .op
  opc := 0x00#8
  modrm := 0x00#8
  lo := 0x00#8
  pos := 0
  out := .none
  source := []

end Sys2Proof.Machine
end

