-- ==== Sys2Proof/Machine/Ops.lean ====
section
/-! DEFINITION. The named operations on the ByteSource and on the sequencer's registers, raising an error, and reset
(spec/20_memory.md; 10_state.md R22 to R24; 60_exceptions.md R147; 70_reset_and_hazards.md R166). -/

namespace Sys2Proof.Machine

/-! ## ByteSource -/

/-- The byte at an offset; nothing at an offset the sequence does not have (20_memory.md R41). -/
def Memory.read : Memory → Nat → Option Byte
  | [], _ => none
  | (a, b) :: rest, k => if a = k then some b else Memory.read rest k

/-- The bytes in offset order. -/
def Memory.bytes (m : Memory) : List Byte := m.map Prod.snd

/-- The cells of a byte sequence whose first byte stands at offset `start`. -/
def Memory.ofBytes (start : Nat) : List Byte → Memory
  | [] => []
  | b :: bs => (start, b) :: Memory.ofBytes (start + 1) bs

/-- The canonical form of a ByteSource: offsets 0, 1, ..., n-1 in order (20_memory.md R41). -/
def Memory.wf (m : Memory) : Bool := decide (m = Memory.ofBytes 0 (Memory.bytes m))

/-- `xs` with `bs` written over it from offset `start`; a gap below `start` is filled with zero bytes. -/
def overlay (xs : List Byte) (start : Nat) (bs : List Byte) : List Byte :=
  (xs ++ List.replicate (start - xs.length) 0x00#8).take start ++ bs ++ xs.drop (start + bs.length)

/-- The driver's side: bytes it has not yet presented are replaced from an offset on (20_memory.md R54). The block itself
writes no byte. -/
def Memory.place (m : Memory) (start : Nat) (bs : List Byte) : Memory :=
  Memory.ofBytes 0 (overlay (Memory.bytes m) start bs)

/-- The event the driver presents: the byte at the stream position, or `EOS` past the last one (10_state.md R16). -/
def State.event (s : State) : Event :=
  match Memory.read s.source s.pos with
  | some b => .byte b
  | none => .eos

/-- The bytes not yet consumed. -/
def State.remaining (s : State) : List Byte := (Memory.bytes s.source).drop s.pos

/-! ## Sequencer registers -/

/-- `pos <- pos + 1`, in every step that consumes a byte (10_state.md R24). -/
def State.advance (s : State) : State := { s with pos := s.pos + 1 }

/-- `opc <- b` (10_state.md R22). -/
def State.latchOpc (b : Byte) (s : State) : State := { s with opc := b }

/-- `modrm <- b` (10_state.md R22). -/
def State.latchModrm (b : Byte) (s : State) : State := { s with modrm := b }

/-- `lo <- b` (10_state.md R22). -/
def State.latchLo (b : Byte) (s : State) : State := { s with lo := b }

/-- Wait for a further byte of the instruction: `st <- next; emit None` (40_decode_sequencer.md R82). -/
def State.await (next : SeqState) (s : State) : State := { s with st := next, out := .none }

/-- The instruction is complete: `st <- OP; emit Instr(r)` (R82, R84). -/
def State.emitInstr (r : DecodedInstruction) (s : State) : State := { s with st := .op, out := .instr r }

/-- The stream ended at an instruction boundary: `st <- DONE; emit End` (R82; 60_exceptions.md R150). -/
def State.endRun (s : State) : State := { s with st := .done, out := .endOfStream }

/-- Taking an error, the block's one exception mechanism: `Error(k, opc)` is emitted and the sequencer enters `ERR`. No state is
saved and the latches keep their values (60_exceptions.md R147, R156). -/
def State.raiseError (k : ErrKind) (opc : Byte) (s : State) : State := { s with st := .err, out := .error k opc }

/-! ## Reset -/

/-- Reset, the only way out of `DONE` and `ERR` (70_reset_and_hazards.md R166, R169): every element of the block takes its reset
value; the driver's ByteSource stays, to be presented from offset 0 (20_memory.md R41). -/
def State.applyReset (s : State) : State := { State.reset with source := s.source }

/-- The driver resets the block and presents a byte sequence from its first byte (R169, R170; 60_exceptions.md R154). -/
def State.loadSource (bs : List Byte) (s : State) : State := { s.applyReset with source := Memory.ofBytes 0 bs }

/-- The hardware counter's view of the stream position, `POS_BITS` bits wide (10_state.md R23). Log 5. -/
def State.posCounter (s : State) : BitVec Config.posBits := BitVec.ofNat Config.posBits s.pos

end Sys2Proof.Machine
end

