-- ==== Sys2Proof/Machine/Operands.lean ====
section
/-! DEFINITION. The operand mappers, the addressing-mode resolver, the direction resolver and the record builders, over the
syntax (what the meanings use) and over the instruction's bytes (the spec's `resolve`, `build_rm` and `build_imm`)
(spec/41_mov_rm_reg.md; 42_mov_imm_reg.md). -/

namespace Sys2Proof.Machine

/-- The register operand mapper `map_reg(w, i)` (41_mov_rm_reg.md R94). -/
def mapReg (w : Bit) (i : Index) : Operand := .register w i

/-- The memory operand mapper: a base expression's index and its displacement (R95). -/
def mapMem (k : Index) (disp : Disp) : Operand := .indexedMemory k disp

/-- `zext_16(b)` (00_scope.md R10). -/
def zext16 (b : Byte) : Word16 := b.setWidth 16

/-- The immediate operand of a one-byte immediate, unsigned (30_encoding.md R66; 42_mov_imm_reg.md R117). -/
def imm8Operand (i0 : Byte) : Operand := .immediate 0#1 (zext16 i0)

/-- The immediate operand of a 2-byte immediate, unsigned (30_encoding.md R66; 42_mov_imm_reg.md R117). -/
def imm16Operand (v : Word16) : Operand := .immediate 1#1 v

/-- The direction resolver: destination and source from the d bit, the reg operand and the rm operand (R106). -/
def direct (d : Bit) (r x : Operand) : Operand × Operand := if d = 1#1 then (r, x) else (x, r)

/-! ## Over the syntax -/

/-- The rm operand of an r/m form, in an instruction of width `w` (R101 to R105). -/
def rmOperand (w : Bit) : RmForm → Operand
  | .reg rm => mapReg w rm
  | .base rm => mapMem rm .noDisp
  | .direct a => .directMemory a
  | .baseDisp8 rm b => mapMem rm (.disp8 b)
  | .baseDisp16 rm v => mapMem rm (.disp16 v)

/-- The record of an F-RM instruction with direction `d` and width `w` (R107). -/
def recordRm (d w : Bit) (reg : Index) (x : RmForm) : DecodedInstruction where
  mnemonic := .mov
  w := w
  dst := (direct d (mapReg w reg) (rmOperand w x)).1
  src := (direct d (mapReg w reg) (rmOperand w x)).2
  len := 2 + x.extraBytes

/-- The record of an F-IMM instruction of width `w` (42_mov_imm_reg.md R121): the register is always the destination. -/
def recordImm (w : Bit) (reg : Index) (imm : Operand) : DecodedInstruction where
  mnemonic := .mov
  w := w
  dst := mapReg w reg
  src := imm
  len := 2 + w.toNat

/-- The record of an instruction: the `d` and `w` bits of its opcode with `build_rm` or `build_imm` (R107, R121). -/
def recordOf : Instr → DecodedInstruction
  | .movRm8R8 dst reg => recordRm 0#1 0#1 reg dst
  | .movRm16R16 dst reg => recordRm 0#1 1#1 reg dst
  | .movR8Rm8 reg src => recordRm 1#1 0#1 reg src
  | .movR16Rm16 reg src => recordRm 1#1 1#1 reg src
  | .movR8Imm8 reg imm => recordImm 0#1 reg (imm8Operand imm)
  | .movR16Imm16 reg imm => recordImm 1#1 reg (imm16Operand imm)

/-! ## Over the bytes -/

/-- Byte `n` of an instruction's extra bytes. `ext` has exactly the bytes the length rule gives (R96), so the default is
never read. Log 14. -/
def extByte (ext : List Byte) (n : Nat) : Byte := ext.getD n 0x00#8

/-- The addressing-mode resolver `resolve(w, mod, rm, ext)` (R96, R101 to R105). -/
def resolve (w : Bit) (md : BitVec 2) (rm : Index) (ext : List Byte) : Operand :=
  if md = 0b11#2 then mapReg w rm
  else if md = 0b00#2 then
    if rm = 0b110#3 then .directMemory (join (extByte ext 1) (extByte ext 0))
    else mapMem rm .noDisp
  else if md = 0b01#2 then mapMem rm (.disp8 (extByte ext 0))
  else mapMem rm (.disp16 (join (extByte ext 1) (extByte ext 0)))

/-- The record builder `build_rm(opc, m, ext)` (R107). -/
def buildRm (opc m : Byte) (ext : List Byte) : DecodedInstruction where
  mnemonic := .mov
  w := fieldW opc
  dst := (direct (fieldD opc) (mapReg (fieldW opc) (fieldReg m)) (resolve (fieldW opc) (fieldMod m) (fieldRm m) ext)).1
  src := (direct (fieldD opc) (mapReg (fieldW opc) (fieldReg m)) (resolve (fieldW opc) (fieldMod m) (fieldRm m) ext)).2
  len := 2 + ext.length

/-- The immediate of an F-IMM instruction (30_encoding.md R66): no sign extension in either case. -/
def buildImmediate (wi : Bit) (ext : List Byte) : Word16 :=
  if wi = 0#1 then zext16 (extByte ext 0) else join (extByte ext 1) (extByte ext 0)

/-- The record builder `build_imm(opc, ext)` (42_mov_imm_reg.md R121). -/
def buildImm (opc : Byte) (ext : List Byte) : DecodedInstruction where
  mnemonic := .mov
  w := fieldWi opc
  dst := mapReg (fieldWi opc) (fieldRegi opc)
  src := .immediate (fieldWi opc) (buildImmediate (fieldWi opc) ext)
  len := 2 + (fieldWi opc).toNat

end Sys2Proof.Machine
end

