-- ==== Sys2Proof/Machine/MovImmReg.lean ====
section
/-! DEFINITION. The meanings of the two immediate moves, opcodes 0xB0 to 0xBF (spec/42_mov_imm_reg.md R123, R124), in the form of
Machine/MovRegMem.lean. Log 13. -/

namespace Sys2Proof.Machine

/-- `mov r8, imm8` (R123): wi = 0. -/
def execMovR8Imm8 (reg : Index) (imm : Byte) (s : State) : Host.Outcome State Fault Refusal :=
  .next (s.emitInstr (recordImm 0#1 reg (imm8Operand imm)))

/-- `mov r16, imm16` (R124): wi = 1. -/
def execMovR16Imm16 (reg : Index) (imm : Word16) (s : State) : Host.Outcome State Fault Refusal :=
  .next (s.emitInstr (recordImm 1#1 reg (imm16Operand imm)))

end Sys2Proof.Machine
end

