-- ==== Sys2Proof/Machine/MovRegMem.lean ====
section
/-! DEFINITION. The meanings of the four register/memory moves, opcodes 0x88 to 0x8B (spec/41_mov_rm_reg.md R109 to R112). A meaning is
the effect of the step that consumes the instruction's last byte, once the sequencer has consumed it: the record is emitted and
the sequencer is back at a boundary (R108; 40_decode_sequencer.md R84). Log 13. -/

namespace Sys2Proof.Machine

/-- `mov r/m8, r8` (R109): d = 0, w = 0. -/
def execMovRm8R8 (dst : RmForm) (reg : Index) (s : State) : Host.Outcome State Fault Refusal :=
  .next (s.emitInstr (recordRm 0#1 0#1 reg dst))

/-- `mov r/m16, r16` (R110): d = 0, w = 1. -/
def execMovRm16R16 (dst : RmForm) (reg : Index) (s : State) : Host.Outcome State Fault Refusal :=
  .next (s.emitInstr (recordRm 0#1 1#1 reg dst))

/-- `mov r8, r/m8` (R111): d = 1, w = 0. -/
def execMovR8Rm8 (reg : Index) (src : RmForm) (s : State) : Host.Outcome State Fault Refusal :=
  .next (s.emitInstr (recordRm 1#1 0#1 reg src))

/-- `mov r16, r/m16` (R112): d = 1, w = 1. -/
def execMovR16Rm16 (reg : Index) (src : RmForm) (s : State) : Host.Outcome State Fault Refusal :=
  .next (s.emitInstr (recordRm 1#1 1#1 reg src))

end Sys2Proof.Machine
end

