-- ==== Sys2Proof/Machine/Dispatch.lean ====
section
/-! DEFINITION. The dispatch: one arm per instruction of spec/opcode_table.json. -/

namespace Sys2Proof.Machine

/-- The meaning of an instruction. -/
def exec (i : Instr) (s : State) : Host.Outcome State Fault Refusal :=
  match i with
  | .movRm8R8 dst reg => Sys2Proof.Machine.execMovRm8R8 dst reg s
  | .movRm16R16 dst reg => Sys2Proof.Machine.execMovRm16R16 dst reg s
  | .movR8Rm8 reg src => Sys2Proof.Machine.execMovR8Rm8 reg src s
  | .movR16Rm16 reg src => Sys2Proof.Machine.execMovR16Rm16 reg src s
  | .movR8Imm8 reg imm => Sys2Proof.Machine.execMovR8Imm8 reg imm s
  | .movR16Imm16 reg imm => Sys2Proof.Machine.execMovR16Imm16 reg imm s

end Sys2Proof.Machine
end

