-- ==== Sys2Proof/Machine/Flags.lean ====
section
/-! DEFINITION. The block has no flags (spec/10_state.md R35) and no control register (R36); its one status besides the output
event is `in_ready` (R17). -/

namespace Sys2Proof.Machine

/-- The status flags of the block: there are none (R35). -/
inductive Flag where
  deriving DecidableEq, Repr

/-- The flags an instruction writes: none (R35; 41_mov_rm_reg.md R108; 42_mov_imm_reg.md R120). -/
def flagsWritten (_ : Instr) : List Flag := []

/-- The final states of a run, in which no step is enabled (40_decode_sequencer.md R80). -/
def SeqState.isFinal : SeqState → Bool
  | .done => true
  | .err => true
  | .op | .modrm | .d8 | .d16L | .d16H | .a16L | .a16H | .i8 | .i16L | .i16H => false

/-- `in_ready`: 1 exactly when `st` is neither `DONE` nor `ERR` (R17, R21). -/
def State.inReady (s : State) : Bool := !s.st.isFinal

end Sys2Proof.Machine
end

