-- ==== Sys2Proof/Machine/Sequencer.lean ====
section
/-! DEFINITION. The decode sequencer: one step on one input event (spec/40_decode_sequencer.md R79 to R85). -/

namespace Sys2Proof.Machine

/-- The bytes of the instruction in flight, in stream order, as the latches hold them in each state (10_state.md R22). -/
def State.inflight (s : State) : List Byte :=
  match s.st with
  | .op | .done | .err => []
  | .modrm | .i8 | .i16L => [s.opc]
  | .d8 | .d16L | .a16L => [s.opc, s.modrm]
  | .i16H => [s.opc, s.lo]
  | .d16H | .a16H => [s.opc, s.modrm, s.lo]

/-- What the sequencer awaits after an opcode byte; nothing when the byte is not recognized (R82). -/
def afterOpcode (b : Byte) : Option SeqState :=
  match cls b with
  | .rm => some .modrm
  | .imm => some (if fieldWi b = 0#1 then .i8 else .i16L)
  | .none => none

/-- What the sequencer awaits after a mod-reg-rm byte; nothing when the instruction is complete with it (R82). -/
def afterModrm (m : Byte) : Option SeqState :=
  if fieldMod m = 0b11#2 then none
  else if fieldMod m = 0b00#2 then (if fieldRm m = 0b110#3 then some .a16L else none)
  else if fieldMod m = 0b01#2 then some .d8
  else some .d16L

/-- The instruction whose bytes are `bs`, all of them consumed, runs: its meaning emits the record (R84).

DESIGN CHOICE (log 8), for states whose latches do not fit the sequencer state, which no run reaches (10_state.md R25) and where
`build_rm` and `build_imm` of R82 may have no value: the bytes alone decide. Where they are exactly one instruction it runs,
although the sequencer state stands for the other family (`I8` with `opc` 0x88 and the byte 0xC0 gives the F-RM record); where
they are not, the step stops by name. -/
def runComplete (bs : List Byte) (s : State) : Host.Outcome State Fault Refusal :=
  match decode bs with
  | .ok i [] => exec i s
  | .ok _ (_ :: _) => .fault .incoherentLatches
  | .endOfStream => .fault .incoherentLatches
  | .error _ _ => .fault .incoherentLatches

/-- The byte `b` has been consumed: the position advances and the latch the sequencer state writes takes it
(10_state.md R22, R24). -/
def State.consume (b : Byte) (s : State) : State :=
  match s.st with
  | .op => s.advance.latchOpc b
  | .modrm => s.advance.latchModrm b
  | .d16L | .a16L | .i16L => s.advance.latchLo b
  | .d8 | .d16H | .a16H | .i8 | .i16H => s.advance
  | .done | .err => s

/-- The step that consumes the byte `b`, in each state (R82). -/
def stepByte (b : Byte) (s : State) : Host.Outcome State Fault Refusal :=
  match s.st with
  | .op =>
    match afterOpcode b with
    | some next => .next ((s.consume b).await next)
    | none => .next ((s.consume b).raiseError .unrecognizedOpcode b)
  | .modrm =>
    match afterModrm b with
    | some next => .next ((s.consume b).await next)
    | none => runComplete (s.inflight ++ [b]) (s.consume b)
  | .d16L => .next ((s.consume b).await .d16H)
  | .a16L => .next ((s.consume b).await .a16H)
  | .i16L => .next ((s.consume b).await .i16H)
  | .d8 | .d16H | .a16H | .i8 | .i16H => runComplete (s.inflight ++ [b]) (s.consume b)
  | .done => .fault .stepInDone
  | .err => .fault .stepInErr

/-- The step that consumes `EOS`, in each state (R82; 60_exceptions.md R149, R150). -/
def stepEos (s : State) : Host.Outcome State Fault Refusal :=
  match s.st with
  | .op => .next s.endRun
  | .modrm | .d8 | .d16L | .d16H | .a16L | .a16H | .i8 | .i16L | .i16H =>
    .next (s.raiseError .truncatedInstruction s.opc)
  | .done => .fault .stepInDone
  | .err => .fault .stepInErr

/-- The step on an input event (R82). Every (state, event) pair outside `DONE` and `ERR` has exactly one arm. -/
def stepOn (ev : Event) (s : State) : Host.Outcome State Fault Refusal :=
  match ev with
  | .byte b => stepByte b s
  | .eos => stepEos s

end Sys2Proof.Machine
end

