-- ==== Sys2Proof/Machine/Step.lean ====
section
/-! DEFINITION. One step of the machine on the event the driver presents next, and placing an instruction where the next step
runs it. -/

namespace Sys2Proof.Machine

/-- One step: the sequencer consumes exactly one input event, the byte at the stream position or `EOS`
(spec/10_state.md R15, R16; 40_decode_sequencer.md R79, R82). Log 1. -/
def step (s : State) : Host.Outcome State Fault Refusal := stepOn s.event s

/-- `k` steps of a state the driver is preparing; a step that stops leaves the state as it is. -/
def State.afterSteps : Nat → State → State
  | 0, s => s
  | k + 1, s =>
    match step s with
    | .next t => State.afterSteps k t
    | .fault _ => s
    | .refused _ => s

/-- The instruction with the table bits `w` placed at the stream position of a block at a boundary, and every byte of it but the
last consumed, so that the very next step consumes the last byte and runs it. Log 2. -/
def State.withFetchWord (s : State) (nbits w : Nat) : State :=
  let placed : State := { s with st := .op, source := Memory.place s.source s.pos (tableBytes nbits w) }
  match decodeTableWord nbits w with
  | some i => State.afterSteps (i.length - 1) placed
  | none => placed

end Sys2Proof.Machine
end

