-- ==== Sys2Proof/Machine/Signals.lean ====
section
/-! DEFINITION. The output signals: the packing of an output event on the `out_*` buses, and the codes of the sequencer states and
the error kinds (spec/10_state.md R19, R21; 60_exceptions.md R146). -/

namespace Sys2Proof.Machine

/-- The signals driven for one step (R19). -/
structure OutSignals where
  valid : Bit
  tag : BitVec 2
  w : Bit
  len : BitVec 3
  dst : BitVec 23
  src : BitVec 23
  err : Bit
  errOpc : Byte
  deriving DecidableEq, Repr

/-- One operand bus from its fields: kind [22:21], idx [20:18], dsz [17:16], val [15:0] (R19). -/
def packFields (kind : BitVec 2) (idx : Index) (dsz : BitVec 2) (val : Word16) : BitVec 23 :=
  kind ++ idx ++ dsz ++ val

/-- The 23-bit packing of an operand (R19). The width of a register operand is `out_w`. -/
def packOperand : Operand → BitVec 23
  | .register _ i => packFields 0b00#2 i 0b00#2 0#16
  | .directMemory a => packFields 0b01#2 0b000#3 0b00#2 a
  | .indexedMemory k .noDisp => packFields 0b10#2 k 0b00#2 0#16
  | .indexedMemory k (.disp8 b) => packFields 0b10#2 k 0b01#2 (b.setWidth 16)
  | .indexedMemory k (.disp16 v) => packFields 0b10#2 k 0b10#2 v
  | .immediate _ v => packFields 0b11#2 0b000#3 0b00#2 v

/-- The code of an error kind on `out_err` (60_exceptions.md R146). -/
def errCode : ErrKind → Bit
  | .unrecognizedOpcode => 0#1
  | .truncatedInstruction => 1#1

/-- Every signal 0: the step's event is `None`, or the edge is no step (R17, R19). -/
def OutSignals.quiet : OutSignals where
  valid := 0#1
  tag := 0b00#2
  w := 0#1
  len := 0#3
  dst := 0#23
  src := 0#23
  err := 0#1
  errOpc := 0x00#8

/-- The signals of an output event (R19). -/
def outSignals : OutEvent → OutSignals
  | .none => OutSignals.quiet
  | .instr r =>
    { OutSignals.quiet with
      valid := 1#1, tag := 0b00#2, w := r.w, len := BitVec.ofNat 3 r.len, dst := packOperand r.dst, src := packOperand r.src }
  | .error k opc => { OutSignals.quiet with valid := 1#1, tag := 0b01#2, err := errCode k, errOpc := opc }
  | .endOfStream => { OutSignals.quiet with valid := 1#1, tag := 0b10#2 }

/-- The 4-bit code of `st` (R21). -/
def SeqState.code : SeqState → BitVec 4
  | .op => 0#4
  | .modrm => 1#4
  | .d8 => 2#4
  | .d16L => 3#4
  | .d16H => 4#4
  | .a16L => 5#4
  | .a16H => 6#4
  | .i8 => 7#4
  | .i16L => 8#4
  | .i16H => 9#4
  | .done => 10#4
  | .err => 11#4

end Sys2Proof.Machine
end

