-- ==== Sys2Proof/Machine/Clock.lean ====
section
/-! DEFINITION. The block as a clocked circuit: one rising edge of `clk` under the input signals (spec/10_state.md R17;
70_reset_and_hazards.md R166, R174, R177). Log 12. -/

namespace Sys2Proof.Machine

/-- The input signals sampled at an edge (R17). -/
structure InSignals where
  rst : Bool
  inValid : Bool
  inEos : Bool
  inByte : Byte
  deriving DecidableEq, Repr

/-- The input event the signals present; `in_byte` is ignored when `in_eos = 1` (R17). -/
def InSignals.event (p : InSignals) : Event := if p.inEos then .eos else .byte p.inByte

/-- One edge: `rst = 1` resets and consumes nothing (R166); with `in_valid = 1` and `in_ready = 1` the edge is a step; any
other edge changes no state and drives `out_valid = 0` (R17, R19). -/
def clockEdge (p : InSignals) (s : State) : Host.Outcome State Fault Refusal :=
  if p.rst then .next s.applyReset
  else if p.inValid && s.inReady then stepOn p.event s
  else .next { s with out := .none }

end Sys2Proof.Machine
end

