-- ==== Sys2Proof/Machine/Reference.lean ====
section
/-! DEFINITION. The spec's own other forms of the block: the pure decode functions over a whole byte sequence and the sequencer's
step function as R82 writes it, over the instruction's bytes (spec/40_decode_sequencer.md R82, R88, R89). -/

namespace Sys2Proof.Machine

/-- What `decode_one` returns: `End`, `Err(k, b0)` or `Ok(r)` (R88). -/
inductive OneResult where
  | endOfStream
  | err (k : ErrKind) (b0 : Byte)
  | ok (r : DecodedInstruction)
  deriving DecidableEq, Repr

/-- `[B[from], ..., B[upto - 1]]`. -/
def slice (B : List Byte) (start upto : Nat) : List Byte := (B.drop start).take (upto - start)

/-- `decode_one(B, p)` (R88). -/
def decodeOne (B : List Byte) (p : Nat) : OneResult :=
  match B[p]? with
  | none => .endOfStream
  | some b0 =>
    match cls b0 with
    | .none => .err .unrecognizedOpcode b0
    | .rm =>
      match B[p + 1]? with
      | none => .err .truncatedInstruction b0
      | some m =>
        if B.length < p + lengthRm m then .err .truncatedInstruction b0
        else .ok (buildRm b0 m (slice B (p + 2) (p + lengthRm m)))
    | .imm =>
      if B.length < p + lengthImm b0 then .err .truncatedInstruction b0
      else .ok (buildImm b0 (slice B (p + 1) (p + lengthImm b0)))

/-- How `decode_stream` ends (R89). -/
inductive StreamEnd where
  | endOfStream
  | err (k : ErrKind) (b0 : Byte)
  deriving DecidableEq, Repr

/-- The loop of `decode_stream` from offset `p`, with at most `fuel` rounds. -/
def decodeLoop (fuel : Nat) (B : List Byte) (p : Nat) : List DecodedInstruction × StreamEnd :=
  match fuel with
  | 0 => ([], .endOfStream)
  | fuel + 1 =>
    match decodeOne B p with
    | .endOfStream => ([], .endOfStream)
    | .err k b => ([], .err k b)
    | .ok r => (r :: (decodeLoop fuel B (p + r.len)).1, (decodeLoop fuel B (p + r.len)).2)

/-- `decode_stream(B)` (R89). Every round consumes a byte, so n + 1 rounds reach the end. -/
def decodeStream (B : List Byte) : List DecodedInstruction × StreamEnd := decodeLoop (B.length + 1) B 0

/-- The step function of R82, arm by arm, with the records built from the latched bytes. It is enabled outside `DONE` and `ERR`
only (R79); there it leaves the state alone. -/
def sequencerR82 (ev : Event) (s : State) : State :=
  match s.st, ev with
  | .done, _ => s
  | .err, _ => s
  | .op, .eos => { s with st := .done, out := .endOfStream }
  | .op, .byte b =>
    let s := { s with pos := s.pos + 1, opc := b }
    match cls b with
    | .rm => { s with st := .modrm, out := .none }
    | .imm => { s with st := if fieldWi b = 0#1 then .i8 else .i16L, out := .none }
    | .none => { s with st := .err, out := .error .unrecognizedOpcode b }
  | _, .eos => { s with st := .err, out := .error .truncatedInstruction s.opc }
  | .modrm, .byte b =>
    let s := { s with pos := s.pos + 1, modrm := b }
    if fieldMod b = 0b11#2 then { s with st := .op, out := .instr (buildRm s.opc b []) }
    else if fieldMod b = 0b00#2 then
      if fieldRm b = 0b110#3 then { s with st := .a16L, out := .none }
      else { s with st := .op, out := .instr (buildRm s.opc b []) }
    else if fieldMod b = 0b01#2 then { s with st := .d8, out := .none }
    else { s with st := .d16L, out := .none }
  | .d8, .byte b => { s with pos := s.pos + 1, st := .op, out := .instr (buildRm s.opc s.modrm [b]) }
  | .d16L, .byte b => { s with pos := s.pos + 1, lo := b, st := .d16H, out := .none }
  | .d16H, .byte b => { s with pos := s.pos + 1, st := .op, out := .instr (buildRm s.opc s.modrm [s.lo, b]) }
  | .a16L, .byte b => { s with pos := s.pos + 1, lo := b, st := .a16H, out := .none }
  | .a16H, .byte b => { s with pos := s.pos + 1, st := .op, out := .instr (buildRm s.opc s.modrm [s.lo, b]) }
  | .i8, .byte b => { s with pos := s.pos + 1, st := .op, out := .instr (buildImm s.opc [b]) }
  | .i16L, .byte b => { s with pos := s.pos + 1, lo := b, st := .i16H, out := .none }
  | .i16H, .byte b => { s with pos := s.pos + 1, st := .op, out := .instr (buildImm s.opc [s.lo, b]) }

end Sys2Proof.Machine
end

