-- ==== Sys2Proof/Machine/Render.lean ====
section
/-! DEFINITION. The two name ROMs, the reference renderer and the reference driver's text: pure functions outside the hardware block
(spec/10_state.md R28, R30; 49_rendering.md R126 to R145). Log 9, log 10, log 11. -/

namespace Sys2Proof.Machine

/-- Text as its characters. -/
abbrev Text := List Char

/-! ## ROMs -/

/-- The ROM `REG[0]`, 8-bit names by index (R28). -/
def regRom8 : List String := ["al", "cl", "dl", "bl", "ah", "ch", "dh", "bh"]

/-- The ROM `REG[1]`, 16-bit names by index (R28). -/
def regRom16 : List String := ["ax", "cx", "dx", "bx", "sp", "bp", "si", "di"]

/-- The ROM `BASE`, the registers each base expression sums, by index (R30). -/
def baseRom : List (List String) :=
  [["bx", "si"], ["bx", "di"], ["bp", "si"], ["bp", "di"], ["si"], ["di"], ["bp"], ["bx"]]

/-- `REG[w][i]` (R28). -/
def regName (w : Bit) (i : Index) : Text :=
  ((if w = 0#1 then regRom8 else regRom16).getD i.toNat "").toList

/-- Names joined by `" + "` (49_rendering.md R135). -/
def joinPlus : List String → Text
  | [] => []
  | [r] => r.toList
  | r :: rest => r.toList ++ " + ".toList ++ joinPlus rest

/-- `btext(k)`: the registers of `BASE[k]` joined by `" + "` (R135). -/
def baseText (k : Index) : Text := joinPlus (baseRom.getD k.toNat [])

/-! ## Numbers -/

/-- The decimal digit `n`, for n < 10. -/
def digitChar (n : Nat) : Char := Char.ofNat (n + 48)

/-- The last `fuel` or fewer decimal digits of `n`, most significant first. -/
def decDigits : Nat → Nat → Text
  | 0, _ => []
  | fuel + 1, n => if n < 10 then [digitChar n] else decDigits fuel (n / 10) ++ [digitChar (n % 10)]

/-- `dec(n)` for n >= 0: the shortest decimal text (R138); n + 1 digits always suffice. -/
def decNat (n : Nat) : Text := decDigits (n + 1) n

/-- `dec(n)` of an integer: a leading `-` exactly when n < 0 (R138). -/
def dec : Int → Text
  | .ofNat n => decNat n
  | .negSucc n => '-' :: decNat (n + 1)

/-! ## Renderer -/

/-- The displacement's part of a memory operand's text: the signed value after `" + "`, also when it is zero or negative
(R133, R136, R137). -/
def dispText : Disp → Text
  | .noDisp => []
  | .disp8 b => " + ".toList ++ dec b.toInt
  | .disp16 v => " + ".toList ++ dec v.toInt

/-- Operand text `op` (R130 to R134). -/
def operandText : Operand → Text
  | .register w i => regName w i
  | .directMemory a => "[".toList ++ decNat a.toNat ++ "]".toList
  | .indexedMemory k disp => "[".toList ++ baseText k ++ dispText disp ++ "]".toList
  | .immediate _ v => decNat v.toNat

/-- Mnemonic text (R129). -/
def mnemonicText : Mnemonic → Text
  | .mov => "mov".toList

/-- `render(r)`, one line without its terminator (R129). -/
def render (r : DecodedInstruction) : Text :=
  mnemonicText r.mnemonic ++ " ".toList ++ operandText r.dst ++ ", ".toList ++ operandText r.src

/-! ## Reference driver -/

/-- A line with its line feed (R142). -/
def line (t : Text) : Text := t ++ ['\n']

/-- `stream_text(B)`: the header line and one line per decoded instruction (R141, R143). -/
def streamText (B : List Byte) : Text :=
  line "bits 16".toList ++ ((decodeStream B).1.map (fun r => line (render r))).flatten

/-- `stream_result(B)`: how decoding ended, returned to the caller and not written as text (R143). -/
def streamResult (B : List Byte) : StreamEnd := (decodeStream B).2

end Sys2Proof.Machine
end

