-- ==== Sys2Proof/Machine/Run.lean ====
section
/-! DEFINITION. Runs: the sequence of steps up to a final state and its output events (spec/40_decode_sequencer.md R86). -/

namespace Sys2Proof.Machine

/-- At most `fuel` steps from a state, ending at the first step that stops: the output event of every step, and the state
reached. -/
def runSteps : Nat → State → List OutEvent × State
  | 0, s => ([], s)
  | fuel + 1, s =>
    match step s with
    | .next t => (t.out :: (runSteps fuel t).1, (runSteps fuel t).2)
    | .fault _ => ([], s)
    | .refused _ => ([], s)

/-- The run on a byte sequence: from reset, with its bytes and then `EOS` presented (R86); n + 1 steps end every run (R87). -/
def runOn (B : List Byte) : List OutEvent × State := runSteps (B.length + 1) (State.loadSource B State.reset)

/-- The output of a run: its output events other than `None`, in step order (R86). -/
def visible (es : List OutEvent) : List OutEvent := es.filter (· != .none)

/-- How a stream's end shows as an output event (R90). -/
def StreamEnd.event : StreamEnd → OutEvent
  | .endOfStream => .endOfStream
  | .err k b => .error k b

/-- The final sequencer state for a stream's end (R90). -/
def StreamEnd.finalState : StreamEnd → SeqState
  | .endOfStream => .done
  | .err _ _ => .err

end Sys2Proof.Machine
end

