-- ==== Sys2Proof/Safety.lean ====
section
/-! DEFINITION. What a sound state of the block is, in the terms the claims use: the latches hold the instruction in flight. -/

namespace Sys2Proof.Machine

/-- The latches hold an instruction of the kind the sequencer state stands for (spec/10_state.md R22, R25;
60_exceptions.md R149, the column "instruction so far"). -/
def State.coherent (s : State) : Bool :=
  match s.st with
  | .op | .done | .err => true
  | .modrm => cls s.opc == .rm
  | .d8 => cls s.opc == .rm && fieldMod s.modrm == 0b01#2
  | .d16L | .d16H => cls s.opc == .rm && fieldMod s.modrm == 0b10#2
  | .a16L | .a16H => cls s.opc == .rm && fieldMod s.modrm == 0b00#2 && fieldRm s.modrm == 0b110#3
  | .i8 => cls s.opc == .imm && fieldWi s.opc == 0#1
  | .i16L | .i16H => cls s.opc == .imm && fieldWi s.opc == 1#1

/-- The bytes in flight are the last bytes consumed from the ByteSource. -/
def State.consumedInflight (s : State) : Bool :=
  decide (s.inflight.length ≤ s.pos) && decide (s.pos ≤ (Memory.bytes s.source).length) &&
    s.inflight == slice (Memory.bytes s.source) (s.pos - s.inflight.length) s.pos

/-- The block's invariant: a canonical ByteSource, coherent latches, the bytes in flight just consumed, and the whole stream
consumed in `DONE`. It says nothing of `pos` after an error (60_exceptions.md R151; 93_implementation_defined.md I1). -/
def State.Inv (s : State) : Prop :=
  Memory.wf s.source = true ∧ s.coherent = true ∧ (s.st ≠ .err → s.consumedInflight = true) ∧
    (s.st = .done → s.pos = (Memory.bytes s.source).length)

end Sys2Proof.Machine
end

