-- ==== Sys2Proof/Certificates/Slice0/Obligations.lean ====
section
/-! DEFINITION. The statements for the provers. No statement reads `pos` after an error (spec/60_exceptions.md R151;
93_implementation_defined.md I1; log 6). -/

open Sys2Proof Sys2Proof.Machine

/-! ## Encoding -/

/-- Every well-formed instruction decodes back from its encoding, whatever bytes follow (30_encoding.md R57, R58, R71). -/
def Obligations.DecodeOfEncodeIsTheInstruction : Prop :=
  ∀ (i : Instr) (rest : List Byte), i.wellFormed = true → decode (encode i ++ rest) = .ok i rest

/-- A decoded instruction is well-formed and its encoding is the bytes it was decoded from, so no bit of an instruction is
dropped and no two byte sequences of one instruction exist (30_encoding.md R57, R58). -/
def Obligations.EncodeOfDecodeIsTheBytes : Prop :=
  ∀ (bs rest : List Byte) (i : Instr), decode bs = .ok i rest → i.wellFormed = true ∧ encode i ++ rest = bs

/-- Words written out from the formats decode to the instructions they stand for (30_encoding.md R57, R58, R70). -/
def Obligations.WordsWrittenFromTheFormatsDecode : Prop :=
  decode [0b10001000#8, 0b00_000_111#8] = .ok (.movRm8R8 (.base 0b111#3) 0b000#3) [] ∧
  decode [0b10001001#8, 0b11_011_001#8] = .ok (.movRm16R16 (.reg 0b001#3) 0b011#3) [] ∧
  decode [0b10001010#8, 0b01_000_000#8, 0x04#8] = .ok (.movR8Rm8 0b000#3 (.baseDisp8 0b000#3 0x04#8)) [] ∧
  decode [0b10001011#8, 0b00_011_110#8, 0x10#8, 0x00#8] = .ok (.movR16Rm16 0b011#3 (.direct 0x0010#16)) [] ∧
  decode [0b10110_100#8, 0x80#8] = .ok (.movR8Imm8 0b100#3 0x80#8) [] ∧
  decode [0b10111_001#8, 0x00#8, 0x01#8] = .ok (.movR16Imm16 0b001#3 0x0100#16) []

/-- The classifier's two tests and its three results, the bytes each family has and the decoder each result selects
(30_encoding.md R59); and that the order of the tests does not matter (R60, which the spec derives). -/
def Obligations.ClassifierIsTheTwoMasks : Prop :=
  ∀ b : Byte,
    (cls b = .rm ↔ b &&& 0b11111100#8 = 0b10001000#8) ∧
    (cls b = .imm ↔ b &&& 0b11110000#8 = 0b10110000#8) ∧
    (cls b = .none ↔ b &&& 0b11111100#8 ≠ 0b10001000#8 ∧ b &&& 0b11110000#8 ≠ 0b10110000#8) ∧
    (cls b = .rm ↔ 0x88 ≤ b.toNat ∧ b.toNat ≤ 0x8B) ∧
    (cls b = .imm ↔ 0xB0 ≤ b.toNat ∧ b.toNat ≤ 0xBF) ∧
    firstMatch opcodeTable.reverse b = cls b ∧
    ∀ rest : List Byte,
      (cls b = .rm → decode (b :: rest) = decodeRm b rest) ∧
      (cls b = .imm → decode (b :: rest) = decodeImm b rest) ∧
      (cls b = .none → decode (b :: rest) = .error .unrecognizedOpcode b)

/-- The length of a decoded instruction follows from its first byte and, for F-RM, its second, by the table of
30_encoding.md R64, and it is the number of bytes the decoder took. -/
def Obligations.LengthFollowsFirstTwoBytes : Prop :=
  ∀ (b0 : Byte) (bs rest : List Byte) (i : Instr), decode (b0 :: bs) = .ok i rest →
    (b0 :: bs).length = i.length + rest.length ∧
    (cls b0 = .rm → ∃ m ext, bs = m :: ext ∧
      (fieldMod m = 0b11#2 → i.length = 2) ∧
      (fieldMod m = 0b00#2 → fieldRm m ≠ 0b110#3 → i.length = 2) ∧
      (fieldMod m = 0b00#2 → fieldRm m = 0b110#3 → i.length = 4) ∧
      (fieldMod m = 0b01#2 → i.length = 3) ∧
      (fieldMod m = 0b10#2 → i.length = 4)) ∧
    (cls b0 = .imm → (fieldWi b0 = 0#1 → i.length = 2) ∧ (fieldWi b0 = 1#1 → i.length = 3))

/-- Every 2-byte field is little-endian: the direct address, the 2-byte displacement and the 2-byte immediate
(20_memory.md R43). -/
def Obligations.TwoByteFieldsAreLittleEndian : Prop :=
  ∀ (opc m first second : Byte) (rest : List Byte),
    ∃ v : Word16, v.toNat = second.toNat * 256 + first.toNat ∧ v.extractLsb' 0 8 = first ∧ v.extractLsb' 8 8 = second ∧
      (cls opc = .rm → fieldMod m = 0b00#2 → fieldRm m = 0b110#3 →
        decode (opc :: m :: first :: second :: rest) = .ok (rmInstr opc (fieldReg m) (.direct v)) rest) ∧
      (cls opc = .rm → fieldMod m = 0b10#2 →
        decode (opc :: m :: first :: second :: rest) = .ok (rmInstr opc (fieldReg m) (.baseDisp16 (fieldRm m) v)) rest) ∧
      (cls opc = .imm → fieldWi opc = 1#1 →
        decode (opc :: first :: second :: rest) = .ok (.movR16Imm16 (fieldRegi opc) v) rest)

/-- A register-to-register move has two encodings, and both give the same record (30_encoding.md R75, which the spec derives). -/
def Obligations.RegisterMovesHaveTwoEncodings : Prop :=
  ∀ (a b : Index) (s : State),
    (encode (.movRm8R8 (.reg a) b) ≠ encode (.movR8Rm8 a (.reg b)) ∧
      decode (encode (.movRm8R8 (.reg a) b)) = .ok (.movRm8R8 (.reg a) b) [] ∧
      decode (encode (.movR8Rm8 a (.reg b))) = .ok (.movR8Rm8 a (.reg b)) [] ∧
      exec (.movRm8R8 (.reg a) b) s = exec (.movR8Rm8 a (.reg b)) s) ∧
    (encode (.movRm16R16 (.reg a) b) ≠ encode (.movR16Rm16 a (.reg b)) ∧
      decode (encode (.movRm16R16 (.reg a) b)) = .ok (.movRm16R16 (.reg a) b) [] ∧
      decode (encode (.movR16Rm16 a (.reg b))) = .ok (.movR16Rm16 a (.reg b)) [] ∧
      exec (.movRm16R16 (.reg a) b) s = exec (.movR16Rm16 a (.reg b)) s)

/-! ## Operands and records -/

/-- The five cases of the addressing-mode resolver (41_mov_rm_reg.md R101 to R105). -/
def Obligations.ResolverCases : Prop :=
  ∀ (w : Bit) (rm : Index) (b0 b1 : Byte),
    resolve w 0b11#2 rm [] = .register w rm ∧
    (rm ≠ 0b110#3 → resolve w 0b00#2 rm [] = .indexedMemory rm .noDisp) ∧
    resolve w 0b00#2 0b110#3 [b0, b1] = .directMemory (b1 ++ b0) ∧
    resolve w 0b01#2 rm [b0] = .indexedMemory rm (.disp8 b0) ∧
    resolve w 0b10#2 rm [b0, b1] = .indexedMemory rm (.disp16 (b1 ++ b0))

/-- Every F-RM byte sequence decodes, and the instruction it stands for runs, in every state, with the record of `build_rm`
(41_mov_rm_reg.md R107). The effect is that of the completing step: st = OP and the record emitted (40_decode_sequencer.md R82,
R84; R108). That `exec` itself leaves the position and the latches, which the step around it moves, is the model's choice (log 13). -/
def Obligations.RegMemBytesRunAsBuildRm : Prop :=
  ∀ (opc m : Byte) (ext rest : List Byte), cls opc = .rm → ext.length = extra m →
    ∃ i, decode (opc :: m :: (ext ++ rest)) = .ok i rest ∧ ∀ s : State,
      exec i s = .next { s with
        st := .op
        out := .instr
          { mnemonic := .mov
            w := opc.extractLsb' 0 1
            dst := if opc.extractLsb' 1 1 = 1#1 then .register (opc.extractLsb' 0 1) (m.extractLsb' 3 3)
              else resolve (opc.extractLsb' 0 1) (m.extractLsb' 6 2) (m.extractLsb' 0 3) ext
            src := if opc.extractLsb' 1 1 = 1#1 then resolve (opc.extractLsb' 0 1) (m.extractLsb' 6 2) (m.extractLsb' 0 3) ext
              else .register (opc.extractLsb' 0 1) (m.extractLsb' 3 3)
            len := 2 + ext.length } }

/-- Every F-IMM byte sequence decodes, and the instruction it stands for runs, in every state, with the record of `build_imm`
(42_mov_imm_reg.md R121): the immediate unsigned and little-endian. The effect is that of the completing step
(40_decode_sequencer.md R82, R84). That `exec` itself leaves the position and the latches is the model's choice (log 13). -/
def Obligations.ImmediateBytesRunAsBuildImm : Prop :=
  ∀ (opc i0 i1 : Byte) (rest : List Byte), cls opc = .imm →
    (opc.extractLsb' 3 1 = 0#1 → ∃ i, decode (opc :: i0 :: rest) = .ok i rest ∧ ∀ s : State,
      exec i s = .next { s with
        st := .op
        out := .instr
          { mnemonic := .mov, w := 0#1, dst := .register 0#1 (opc.extractLsb' 0 3), src := .immediate 0#1 (0#8 ++ i0), len := 2 } }) ∧
    (opc.extractLsb' 3 1 = 1#1 → ∃ i, decode (opc :: i0 :: i1 :: rest) = .ok i rest ∧ ∀ s : State,
      exec i s = .next { s with
        st := .op
        out := .instr
          { mnemonic := .mov, w := 1#1, dst := .register 1#1 (opc.extractLsb' 0 3), src := .immediate 1#1 (i1 ++ i0), len := 3 } })

/-- `mov r/m8, r8` completes in every state: the record has the rm operand as destination and the register as source
(41_mov_rm_reg.md R109; 40_decode_sequencer.md R82, R84). That `exec` leaves everything else, the position among it, to the step
around it is the model's choice (log 13). -/
def Obligations.MovRm8R8Completes : Prop :=
  ∀ (x : RmForm) (reg : Index) (s : State), x.wellFormed = true →
    (encode (.movRm8R8 x reg)).head? = some 0x88#8 ∧
    exec (.movRm8R8 x reg) s = .next { s with
      st := .op
      out := .instr
        { mnemonic := .mov, w := 0#1, dst := resolve 0#1 x.modBits x.rmBits x.encodeExtra, src := .register 0#1 reg,
          len := (encode (.movRm8R8 x reg)).length } }

/-- `mov r/m16, r16` completes in every state (41_mov_rm_reg.md R110; 40_decode_sequencer.md R82, R84). That `exec` leaves everything
else, the position among it, to the step around it is the model's choice (log 13). -/
def Obligations.MovRm16R16Completes : Prop :=
  ∀ (x : RmForm) (reg : Index) (s : State), x.wellFormed = true →
    (encode (.movRm16R16 x reg)).head? = some 0x89#8 ∧
    exec (.movRm16R16 x reg) s = .next { s with
      st := .op
      out := .instr
        { mnemonic := .mov, w := 1#1, dst := resolve 1#1 x.modBits x.rmBits x.encodeExtra, src := .register 1#1 reg,
          len := (encode (.movRm16R16 x reg)).length } }

/-- `mov r8, r/m8` completes in every state (41_mov_rm_reg.md R111; 40_decode_sequencer.md R82, R84). That `exec` leaves everything
else, the position among it, to the step around it is the model's choice (log 13). -/
def Obligations.MovR8Rm8Completes : Prop :=
  ∀ (reg : Index) (x : RmForm) (s : State), x.wellFormed = true →
    (encode (.movR8Rm8 reg x)).head? = some 0x8A#8 ∧
    exec (.movR8Rm8 reg x) s = .next { s with
      st := .op
      out := .instr
        { mnemonic := .mov, w := 0#1, dst := .register 0#1 reg, src := resolve 0#1 x.modBits x.rmBits x.encodeExtra,
          len := (encode (.movR8Rm8 reg x)).length } }

/-- `mov r16, r/m16` completes in every state (41_mov_rm_reg.md R112; 40_decode_sequencer.md R82, R84). That `exec` leaves everything
else, the position among it, to the step around it is the model's choice (log 13). -/
def Obligations.MovR16Rm16Completes : Prop :=
  ∀ (reg : Index) (x : RmForm) (s : State), x.wellFormed = true →
    (encode (.movR16Rm16 reg x)).head? = some 0x8B#8 ∧
    exec (.movR16Rm16 reg x) s = .next { s with
      st := .op
      out := .instr
        { mnemonic := .mov, w := 1#1, dst := .register 1#1 reg, src := resolve 1#1 x.modBits x.rmBits x.encodeExtra,
          len := (encode (.movR16Rm16 reg x)).length } }

/-- `mov r8, imm8` completes in every state: the immediate is the byte as an unsigned number, and the opcode byte is 0xB0 plus the
register's index (42_mov_imm_reg.md R117, R123, R125; 40_decode_sequencer.md R82, R84). That `exec` leaves everything else, the
position among it, to the step around it is the model's choice (log 13). -/
def Obligations.MovR8Imm8Completes : Prop :=
  ∀ (reg : Index) (imm : Byte) (s : State),
    (encode (.movR8Imm8 reg imm)).map BitVec.toNat = [0xB0 + reg.toNat, imm.toNat] ∧
    ∃ v : Word16, v.toNat = imm.toNat ∧
      exec (.movR8Imm8 reg imm) s = .next { s with
        st := .op
        out := .instr { mnemonic := .mov, w := 0#1, dst := .register 0#1 reg, src := .immediate 0#1 v, len := 2 } }

/-- `mov r16, imm16` completes in every state: the opcode byte is 0xB8 plus the register's index and the immediate's low byte
comes first (42_mov_imm_reg.md R117, R124, R125; 40_decode_sequencer.md R82, R84). That `exec` leaves everything else, the
position among it, to the step around it is the model's choice (log 13). -/
def Obligations.MovR16Imm16Completes : Prop :=
  ∀ (reg : Index) (imm : Word16) (s : State),
    (encode (.movR16Imm16 reg imm)).map BitVec.toNat = [0xB8 + reg.toNat, imm.toNat % 256, imm.toNat / 256] ∧
    exec (.movR16Imm16 reg imm) s = .next { s with
      st := .op
      out := .instr { mnemonic := .mov, w := 1#1, dst := .register 1#1 reg, src := .immediate 1#1 imm, len := 3 } }

/-- What an instruction leaves unchanged: the latches, the stream position and every byte of the ByteSource; it writes no flag
(41_mov_rm_reg.md R108; 42_mov_imm_reg.md R120; 20_memory.md R54). That `exec` leaves the position and the latches to the step
around it is the model's choice (log 13). -/
def Obligations.InstructionFrame : Prop :=
  ∀ (i : Instr) (s t : State), exec i s = .next t →
    t.opc = s.opc ∧ t.modrm = s.modrm ∧ t.lo = s.lo ∧ t.pos = s.pos ∧ flagsWritten i = [] ∧
    (∀ a, Memory.read t.source a = Memory.read s.source a) ∧ t.st = .op ∧ ∃ r, t.out = .instr r

/-- The record invariants (10_state.md R34), of every record any step emits, from any state. In states whose latches do not fit the
sequencer state, which no run reaches, that a record is emitted at all is the model's choice (log 8). -/
def Obligations.EmittedRecordsAreSound : Prop :=
  ∀ (s t : State) (r : DecodedInstruction), step s = .next t → t.out = .instr r →
    (∀ w v, r.dst ≠ .immediate w v) ∧
    ((∃ w i, r.dst = .register w i) ∨ (∃ w i, r.src = .register w i)) ∧
    ¬ (((∃ a, r.dst = .directMemory a) ∨ (∃ k d, r.dst = .indexedMemory k d)) ∧
       ((∃ a, r.src = .directMemory a) ∨ (∃ k d, r.src = .indexedMemory k d))) ∧
    (∀ w i, r.dst = .register w i → w = r.w) ∧ (∀ w i, r.src = .register w i → w = r.w) ∧
    (∀ w v, r.src = .immediate w v → w = r.w ∧ (w = 0#1 → v.toNat < 256)) ∧
    (r.len = 2 ∨ r.len = 3 ∨ r.len = 4)

/-! ## The step -/

/-- A step runs the decoded instruction: when the bytes in flight and the byte presented decode to `i`, the step consumes the byte
and is then `exec i`. Consuming moves the position by one and latches the byte where the state latches it; an instruction
completes in `MODRM` or in a state that latches nothing (40_decode_sequencer.md R82, R84; the byte-serial form is the model's
choice of step, log 1 and log 13). -/
def Obligations.StepRunsTheDecodedInstruction : Prop :=
  ∀ (s : State) (b : Byte) (i : Instr), s.coherent = true → s.event = .byte b → decode (s.inflight ++ [b]) = .ok i [] →
    step s = exec i (s.consume b) ∧
    s.consume b = { s with pos := s.pos + 1, modrm := if s.st = .modrm then b else s.modrm }

/-- The step is the step function of R82, from every state whose latches are coherent (40_decode_sequencer.md R82, R83: the spec's
own decision D5), but for the position after an error. -/
def Obligations.StepIsTheSequencerOfR82 : Prop :=
  ∀ s : State, s.coherent = true → s.st ≠ .done → s.st ≠ .err →
    ∃ t, step s = .next t ∧ { t with pos := 0 } = { sequencerR82 s.event s with pos := 0 } ∧
      (t.st ≠ .err → t.pos = (sequencerR82 s.event s).pos)

/-- From a boundary, an instruction takes exactly `len` steps: every step but the last emits `None`, the last emits the record,
and the block is at the next boundary with `pos` advanced by `len` (40_decode_sequencer.md R84, R85). -/
def Obligations.InstructionRunsInLenSteps : Prop :=
  ∀ (i : Instr) (s : State) (rest : List Byte), i.wellFormed = true → s.st = .op → Memory.wf s.source = true →
    s.remaining = encode i ++ rest →
    ∃ t : State, Host.Core.run Sys2Proof.core (recordOf i).len s = .next t ∧
      runSteps (recordOf i).len s = (List.replicate ((recordOf i).len - 1) OutEvent.none ++ [.instr (recordOf i)], t) ∧
      t.st = .op ∧ t.pos = s.pos + (recordOf i).len ∧ t.remaining = rest ∧ t.source = s.source

/-- `UnrecognizedOpcode(b)` is raised exactly by the step that consumes, at a boundary, a byte outside the two families; no byte
after it is read (60_exceptions.md R148). -/
def Obligations.UnrecognizedOpcodeIsRaised : Prop :=
  (∀ (s : State) (b : Byte), s.st = .op → s.event = .byte b →
    ¬ (0x88 ≤ b.toNat ∧ b.toNat ≤ 0x8B) → ¬ (0xB0 ≤ b.toNat ∧ b.toNat ≤ 0xBF) →
    ∃ t, step s = .next t ∧ t.st = .err ∧ t.out = .error .unrecognizedOpcode b ∧ ∀ u, step t ≠ .next u) ∧
  (∀ (s t : State) (b : Byte), step s = .next t → t.out = .error .unrecognizedOpcode b →
    s.st = .op ∧ s.event = .byte b ∧ cls b = .none)

/-- `TruncatedInstruction(opc)` is raised exactly by the step that consumes `EOS` in a state with an instruction in flight
(60_exceptions.md R149); what the latches held stays. -/
def Obligations.TruncatedInstructionIsRaised : Prop :=
  (∀ s : State, s.event = .eos →
    s.st ∈ [SeqState.modrm, .d8, .d16L, .d16H, .a16L, .a16H, .i8, .i16L, .i16H] →
    ∃ t, step s = .next t ∧ t.st = .err ∧ t.out = .error .truncatedInstruction s.opc ∧
      t.opc = s.opc ∧ t.modrm = s.modrm ∧ t.lo = s.lo) ∧
  (∀ (s t : State) (b : Byte), step s = .next t → t.out = .error .truncatedInstruction b →
    s.event = .eos ∧ s.st ∈ [SeqState.modrm, .d8, .d16L, .d16H, .a16L, .a16H, .i8, .i16L, .i16H] ∧ b = s.opc)

/-- `EOS` at an instruction boundary is no error: the step emits `End` and enters `DONE` (60_exceptions.md R150). -/
def Obligations.EndOfStreamAtABoundaryIsNoError : Prop :=
  ∀ s : State, s.st = .op → s.event = .eos →
    step s = .next { s with st := .done, out := .endOfStream }

/-- `DONE` and `ERR` take no step: the model's step stops by name there (its choice of form, log 7), `in_ready` is 0, an edge
without reset changes nothing but silences the outputs, and an edge with reset leaves them
(40_decode_sequencer.md R80; 60_exceptions.md R152, R157; 70_reset_and_hazards.md R169: spec decisions D7, D8). -/
def Obligations.FinalStatesTakeNoStep : Prop :=
  ∀ (s : State) (p : InSignals), s.st = .done ∨ s.st = .err →
    (s.st = .done → step s = .fault .stepInDone) ∧ (s.st = .err → step s = .fault .stepInErr) ∧
    s.inReady = false ∧
    (p.rst = false → clockEdge p s = .next { s with out := .none }) ∧
    (p.rst = true → ∃ t, clockEdge p s = .next t ∧ t.st = .op ∧ t.inReady = true)

/-- Outside the final states, with coherent latches, every event is consumed by a step: none faults and none is refused
(40_decode_sequencer.md R79, R82: every pair has an arm). -/
def Obligations.EveryEnabledStepCompletes : Prop :=
  ∀ (s : State) (ev : Event), s.coherent = true → s.inReady = true →
    ∃ t, stepOn ev s = .next t ∧ t.coherent = true ∧ t.source = s.source

/-- What a step leaves unchanged: the ByteSource always, and each latch but in the states R22 names; the position moves by one
with a byte and not with `EOS` (10_state.md R22, R24; 20_memory.md R48, R54). -/
def Obligations.StepFrame : Prop :=
  ∀ s t : State, step s = .next t →
    (∀ a, Memory.read t.source a = Memory.read s.source a) ∧
    (s.st ≠ .op → t.opc = s.opc) ∧ (s.st ≠ .modrm → t.modrm = s.modrm) ∧
    (s.st ≠ .d16L → s.st ≠ .a16L → s.st ≠ .i16L → t.lo = s.lo) ∧
    (s.event = .eos → t.opc = s.opc ∧ t.modrm = s.modrm ∧ t.lo = s.lo) ∧
    (t.st ≠ .err → s.event = .eos → t.pos = s.pos) ∧
    (t.st ≠ .err → ∀ b, s.event = .byte b → t.pos = s.pos + 1)

/-- An `Instr` output comes only from the step that consumes the last byte of its instruction, and is that instruction's record
(40_decode_sequencer.md R84, which the spec derives). In states whose latches do not fit the
sequencer state, which no run reaches, that the bytes alone decide is the model's choice (log 8). -/
def Obligations.InstrOnlyWithTheLastByte : Prop :=
  ∀ (s t : State) (r : DecodedInstruction), step s = .next t → t.out = .instr r →
    ∃ b i, s.event = .byte b ∧ decode (s.inflight ++ [b]) = .ok i [] ∧ r = recordOf i ∧
      r.len = s.inflight.length + 1 ∧ t.st = .op

/-! ## Reset and the clocked form -/

/-- An edge with `rst = 1` resets every element, whatever is presented, and consumes nothing
(70_reset_and_hazards.md R166; 10_state.md R40: the spec's own decision D9). -/
def Obligations.ResetEdgeSetsEveryElement : Prop :=
  ∀ (s : State) (p : InSignals), p.rst = true →
    ∃ t, clockEdge p s = .next t ∧ t.st = .op ∧ t.pos = 0 ∧ t.opc = 0x00#8 ∧ t.modrm = 0x00#8 ∧ t.lo = 0x00#8 ∧
      outSignals t.out = { valid := 0#1, tag := 0#2, w := 0#1, len := 0#3, dst := 0#23, src := 0#23, err := 0#1, errOpc := 0#8 } ∧
      t.inReady = true ∧ t.inflight = [] ∧ t.source = s.source

/-- The edges that are steps and the edges that are not (10_state.md R17, the spec's own decision D2): a step consumes the
presented event, `in_byte` unread when `in_eos = 1`; any other edge keeps the state and drives `out_valid = 0`. -/
def Obligations.ClockEdgeIsAStepWhenValidAndReady : Prop :=
  ∀ (s : State) (p : InSignals), p.rst = false →
    (p.inValid = true → s.inReady = true → p.inEos = false → clockEdge p s = stepOn (.byte p.inByte) s) ∧
    (p.inValid = true → s.inReady = true → p.inEos = true → clockEdge p s = stepOn .eos s) ∧
    (p.inValid = false ∨ s.inReady = false →
      clockEdge p s = .next { s with out := .none } ∧ (outSignals .none).valid = 0#1) ∧
    (s.inReady = true → p.inValid = true → p.event = s.event → clockEdge p s = step s)

/-- After reset the first byte presented is consumed as an opcode byte at offset 0, whatever went before
(70_reset_and_hazards.md R167, R168: spec decisions D9, D24). -/
def Obligations.FirstByteAfterResetIsAnOpcode : Prop :=
  ∀ (s : State) (b : Byte) (bs : List Byte),
    ∃ t, step (s.loadSource (b :: bs)) = .next t ∧ t.opc = b ∧
      (cls b = .rm → t.st = .modrm ∧ t.out = .none ∧ t.pos = 1) ∧
      (cls b = .imm → fieldWi b = 0#1 → t.st = .i8 ∧ t.out = .none ∧ t.pos = 1) ∧
      (cls b = .imm → fieldWi b = 1#1 → t.st = .i16L ∧ t.out = .none ∧ t.pos = 1) ∧
      (cls b = .none → t.st = .err ∧ t.out = .error .unrecognizedOpcode b)

/-- The reset state and every freshly loaded stream meet the block's invariant (10_state.md R40; 20_memory.md R41; the empty
ByteSource of the reset state is the model's choice, log 2). -/
def Obligations.InvariantAtReset : Prop :=
  State.reset.Inv ∧ ∀ (s : State) (bs : List Byte), (s.loadSource bs).Inv

/-- The invariant: the ByteSource is canonical, the latches hold the instruction in flight, the bytes in flight are the last bytes
consumed, and `DONE` means the whole stream was consumed. Every step keeps it (10_state.md R22, R25; 20_memory.md R41, R44). -/
def Obligations.StepKeepsInvariant : Prop :=
  ∀ s t : State, s.Inv → step s = .next t → t.Inv

/-- Coherent latches survive every clock edge, reset and idle edges among them (10_state.md R17, R25). -/
def Obligations.ClockEdgeKeepsLatchesCoherent : Prop :=
  ∀ (s : State) (p : InSignals), s.coherent = true → ∃ t, clockEdge p s = .next t ∧ t.coherent = true

/-! ## Runs and the pure decode functions -/

/-- `decode_one` is the decoder at the offset, with the instruction's record (40_decode_sequencer.md R88). -/
def Obligations.DecodeOneIsTheDecoderAtAnOffset : Prop :=
  ∀ (B : List Byte) (p : Nat),
    decodeOne B p = match decode (B.drop p) with
      | .ok i _ => .ok (recordOf i)
      | .endOfStream => .endOfStream
      | .error k b => .err k b

/-- `decode_stream` meets the loop of R89: it decodes at the front, keeps the record and goes on behind the instruction; it ends at
the end of the stream or at the first error (40_decode_sequencer.md R89). -/
def Obligations.DecodeStreamMeetsItsLoop : Prop :=
  ∀ B : List Byte,
    (decodeOne B 0 = .endOfStream → decodeStream B = ([], .endOfStream)) ∧
    (∀ k b, decodeOne B 0 = .err k b → decodeStream B = ([], .err k b)) ∧
    (∀ r, decodeOne B 0 = .ok r →
      decodeStream B = (r :: (decodeStream (B.drop r.len)).1, (decodeStream (B.drop r.len)).2))

/-- A stream of encoded instructions decodes to their records, in order, and then goes on with what follows them: nothing before an
error is lost and nothing is skipped (40_decode_sequencer.md R89; 60_exceptions.md R155). -/
def Obligations.DecodeStreamOfEncodedInstructions : Prop :=
  ∀ (is : List Instr) (tail : List Byte), (∀ i ∈ is, i.wellFormed = true) →
    decodeStream ((is.map encode).flatten ++ tail) =
      (is.map recordOf ++ (decodeStream tail).1, (decodeStream tail).2)

/-- The byte-serial run and the pure function agree on every byte sequence: the visible outputs are the records and then how
decoding ended, the final state is `DONE` or `ERR` accordingly, and after `End` the position is n
(40_decode_sequencer.md R86, R90, which the spec derives). -/
def Obligations.RunAgreesWithDecodeStream : Prop :=
  ∀ B : List Byte,
    visible (runOn B).1 = (decodeStream B).1.map OutEvent.instr ++ [(decodeStream B).2.event] ∧
    (runOn B).2.st = (decodeStream B).2.finalState ∧
    ((decodeStream B).2 = .endOfStream → (runOn B).2.pos = B.length)

/-- Every run ends: from any state that meets the invariant, with m bytes not yet consumed, at most m + 1 steps lead to `DONE` or
`ERR` (40_decode_sequencer.md R87, which the spec derives). -/
def Obligations.EveryRunEnds : Prop :=
  ∀ s : State, s.Inv →
    (runSteps (s.remaining.length + 1) s).2.inReady = false ∧
    (runSteps (s.remaining.length + 1) s).1.length ≤ s.remaining.length + 1

/-- The step after `End` or an error does not exist, so a run has at most one of them and it comes last
(60_exceptions.md R152, R153). -/
def Obligations.ErrorOrEndComesLastInARun : Prop :=
  ∀ (k : Nat) (s : State) (es fs : List OutEvent) (e : OutEvent), (runSteps k s).1 = es ++ e :: fs →
    (e = .endOfStream ∨ ∃ kind b, e = .error kind b) → fs = []

/-- No output depends on what the latches, the position or the output held at a boundary: two blocks at a boundary with the same
bytes to come give the same outputs (10_state.md R23, R25, R26). -/
def Obligations.OutputsDependOnlyOnBytesToCome : Prop :=
  ∀ (k : Nat) (s t : State), s.st = .op → t.st = .op → Memory.wf s.source = true → Memory.wf t.source = true →
    s.remaining = t.remaining → (runSteps k s).1 = (runSteps k t).1

/-- Output event j belongs to the step that consumed input event j: two streams that agree on their first k bytes give the same
first k outputs, so no output looks ahead (20_memory.md R42, R51). -/
def Obligations.OutputsFollowTheBytesConsumed : Prop :=
  ∀ (k : Nat) (B C : List Byte), B.take k = C.take k →
    (runSteps k (State.reset.loadSource B)).1 = (runSteps k (State.reset.loadSource C)).1

/-- Placing the bits of an opcode-table word makes the very next step consume the instruction's last byte and run it; the
interface is the model's choice (log 2). It rests on 40_decode_sequencer.md R82. -/
def Obligations.PlacedWordRunsNext : Prop :=
  ∀ (s : State) (nbits w : Nat) (i : Instr), decodeTableWord nbits w = some i →
    ∃ b, (s.withFetchWord nbits w).event = .byte b ∧
      (s.withFetchWord nbits w).inflight ++ [b] = encode i ∧
      (s.withFetchWord nbits w).pos + 1 = s.pos + i.length ∧
      step (s.withFetchWord nbits w) = exec i ((s.withFetchWord nbits w).consume b)

/-! ## Output signals -/

/-- The buses carry exactly the record: two instructions with the same output signals have the same record
(10_state.md R19, the spec's own decision D3). -/
def Obligations.OutputSignalsCarryTheRecord : Prop :=
  ∀ i j : Instr, outSignals (.instr (recordOf i)) = outSignals (.instr (recordOf j)) → recordOf i = recordOf j

/-- The fields of the output signals (10_state.md R19, the spec's own decision D3): every signal of every event, with the column
'else 0' of the table, and the packing of each operand variant as a number. -/
def Obligations.OutputSignalFields : Prop :=
  (∀ e : OutEvent, ((outSignals e).valid = 0#1 ↔ e = .none) ∧ (outSignals e).tag ≠ 0b11#2) ∧
  outSignals .none = { valid := 0#1, tag := 0b00#2, w := 0#1, len := 0#3, dst := 0#23, src := 0#23, err := 0#1, errOpc := 0#8 } ∧
  (∀ r : DecodedInstruction, (outSignals (.instr r)).tag = 0b00#2 ∧ (outSignals (.instr r)).w = r.w ∧
    (outSignals (.instr r)).len.toNat = r.len % 8 ∧
    (outSignals (.instr r)).dst = packOperand r.dst ∧ (outSignals (.instr r)).src = packOperand r.src ∧
    (outSignals (.instr r)).err = 0#1 ∧ (outSignals (.instr r)).errOpc = 0#8) ∧
  (∀ opc : Byte,
    outSignals (.error .unrecognizedOpcode opc) =
      { valid := 1#1, tag := 0b01#2, w := 0#1, len := 0#3, dst := 0#23, src := 0#23, err := 0#1, errOpc := opc } ∧
    outSignals (.error .truncatedInstruction opc) =
      { valid := 1#1, tag := 0b01#2, w := 0#1, len := 0#3, dst := 0#23, src := 0#23, err := 1#1, errOpc := opc }) ∧
  outSignals .endOfStream =
    { valid := 1#1, tag := 0b10#2, w := 0#1, len := 0#3, dst := 0#23, src := 0#23, err := 0#1, errOpc := 0#8 } ∧
  (∀ (w : Bit) (i : Index), (packOperand (.register w i)).toNat = i.toNat * 2 ^ 18) ∧
  (∀ a : Word16, (packOperand (.directMemory a)).toNat = 1 * 2 ^ 21 + a.toNat) ∧
  (∀ k : Index, (packOperand (.indexedMemory k .noDisp)).toNat = 2 * 2 ^ 21 + k.toNat * 2 ^ 18) ∧
  (∀ (k : Index) (b : Byte),
    (packOperand (.indexedMemory k (.disp8 b))).toNat = 2 * 2 ^ 21 + k.toNat * 2 ^ 18 + 1 * 2 ^ 16 + b.toNat) ∧
  (∀ (k : Index) (v : Word16),
    (packOperand (.indexedMemory k (.disp16 v))).toNat = 2 * 2 ^ 21 + k.toNat * 2 ^ 18 + 2 * 2 ^ 16 + v.toNat) ∧
  (∀ (w : Bit) (v : Word16), (packOperand (.immediate w v)).toNat = 3 * 2 ^ 21 + v.toNat)

/-- The table of the sequencer codes, and `in_ready` 0 exactly at 10 (`DONE`) and 11 (`ERR`)
(10_state.md R21, the spec's own decision D5). -/
def Obligations.SequencerCodes : Prop :=
  SeqState.op.code.toNat = 0 ∧ SeqState.modrm.code.toNat = 1 ∧ SeqState.d8.code.toNat = 2 ∧
  SeqState.d16L.code.toNat = 3 ∧ SeqState.d16H.code.toNat = 4 ∧ SeqState.a16L.code.toNat = 5 ∧
  SeqState.a16H.code.toNat = 6 ∧ SeqState.i8.code.toNat = 7 ∧ SeqState.i16L.code.toNat = 8 ∧
  SeqState.i16H.code.toNat = 9 ∧ SeqState.done.code.toNat = 10 ∧ SeqState.err.code.toNat = 11 ∧
  (∀ a b : SeqState, a.code = b.code → a = b) ∧ (∀ a : SeqState, a.code.toNat < 12) ∧
  (∀ s : State, s.inReady = false ↔ s.st.code = 10#4 ∨ s.st.code = 11#4)

/-! ## Text -/

/-- The ROM contents: the sixteen register names and the eight base expressions (10_state.md R28, R30: the spec's own decisions D11
and D12, log 9). -/
def Obligations.RomContents : Prop :=
  (List.range 8).map (fun i => regName 0#1 (BitVec.ofNat 3 i)) =
    ["al".toList, "cl".toList, "dl".toList, "bl".toList, "ah".toList, "ch".toList, "dh".toList, "bh".toList] ∧
  (List.range 8).map (fun i => regName 1#1 (BitVec.ofNat 3 i)) =
    ["ax".toList, "cx".toList, "dx".toList, "bx".toList, "sp".toList, "bp".toList, "si".toList, "di".toList] ∧
  (List.range 8).map (fun k => baseText (BitVec.ofNat 3 k)) =
    ["bx + si".toList, "bx + di".toList, "bp + si".toList, "bp + di".toList, "si".toList, "di".toList, "bp".toList, "bx".toList]

/-- The line form, with no size keyword before a memory operand, and the text of a register, of an immediate (unsigned) and of a
memory operand without displacement (49_rendering.md R129, R130, R131, R134). -/
def Obligations.RendererForms : Prop :=
  (∀ r : DecodedInstruction, render r = "mov ".toList ++ operandText r.dst ++ ", ".toList ++ operandText r.src) ∧
  (∀ (w : Bit) (i : Index), operandText (.register w i) = regName w i) ∧
  (∀ (w : Bit) (v : Word16), operandText (.immediate w v) = dec (v.toNat : Int)) ∧
  (∀ k : Index, operandText (.indexedMemory k .noDisp) = "[".toList ++ baseText k ++ "]".toList) ∧
  (∀ a : Word16, (operandText (.directMemory a)).head? = some '[') ∧
  (∀ (k : Index) (disp : Disp), (operandText (.indexedMemory k disp)).head? = some '[')

/-- The text of a displacement, signed and kept when zero, and of a direct address, unsigned (49_rendering.md R132, R133, R136, R137).
A negative displacement's text and the address's number base are the spec's own decisions D14 and D15, log 10; that the signed
value is the two's complement one is general knowledge in the spec (00_scope.md R10). -/
def Obligations.DisplacementAndAddressText : Prop :=
  (∀ a : Word16, operandText (.directMemory a) = "[".toList ++ dec (a.toNat : Int) ++ "]".toList) ∧
  (∀ (k : Index) (b : Byte), operandText (.indexedMemory k (.disp8 b)) =
    "[".toList ++ baseText k ++ " + ".toList ++
      dec (if b.toNat < 128 then (b.toNat : Int) else (b.toNat : Int) - 256) ++ "]".toList) ∧
  (∀ (k : Index) (v : Word16), operandText (.indexedMemory k (.disp16 v)) =
    "[".toList ++ baseText k ++ " + ".toList ++
      dec (if v.toNat < 32768 then (v.toNat : Int) else (v.toNat : Int) - 65536) ++ "]".toList)

/-- The text of a record depends on its operands only, not on its `len` and `w` fields (49_rendering.md R127). -/
def Obligations.TextIgnoresLenAndWidth : Prop :=
  ∀ (r : DecodedInstruction) (w : Bit) (len : Nat), render { r with w := w, len := len } = render r

/-- Decimal text: the digits denote the number, with no leading zero, and a minus sign exactly for a negative number
(49_rendering.md R138; the negative form is the spec's decision D14). -/
def Obligations.DecimalTextDenotesTheNumber : Prop :=
  (∀ n : Nat, (dec (n : Int)).foldl (fun v c => 10 * v + (c.toNat - 48)) 0 = n ∧
    (∀ c ∈ dec (n : Int), 48 ≤ c.toNat ∧ c.toNat ≤ 57) ∧
    (n ≠ 0 → (dec (n : Int)).head? ≠ some '0') ∧ dec (n : Int) ≠ []) ∧
  dec 0 = ['0'] ∧
  (∀ n : Nat, n ≠ 0 → dec (-(n : Int)) = '-' :: dec (n : Int))

/-- Every line is lower-case letters, digits and the fixed punctuation: no upper case, no tab, no line feed inside
(49_rendering.md R139). -/
def Obligations.LineCharacters : Prop :=
  ∀ (i : Instr), ∀ c ∈ render (recordOf i),
    (97 ≤ c.toNat ∧ c.toNat ≤ 122) ∨ (48 ≤ c.toNat ∧ c.toNat ≤ 57) ∨ c ∈ [' ', ',', '[', ']', '+', '-']

/-- The text of a stream is the header line and then, for each decoded record in order, its line and one line feed, and nothing
more: so an error is not written but returned (49_rendering.md R141 to R144; the terminator is the spec's decision D16, log 10,
the reaction to an error its decision D18, log 11). No line holds a line feed of its own. -/
def Obligations.StreamTextIsHeaderAndOneLineEach : Prop :=
  streamText [] = "bits 16\n".toList ∧ streamResult [] = .endOfStream ∧
  ∀ B : List Byte,
    streamText B = "bits 16\n".toList ++ (decodeStream B).1.flatMap (fun r => render r ++ ['\n']) ∧
    streamResult B = (decodeStream B).2 ∧
    (streamText B).count '\n' = (decodeStream B).1.length + 1 ∧
    (streamText B).getLast? = some '\n'
end

