-- ==== Sys2Proof/Laws/Decode.lean ====
section
/-! SUPPORT. The classifier, the fields of an encoded byte, and what the decoder does once: one lemma per function. -/

namespace Sys2Proof

/-! ## Opcode bytes -/

theorem cls_cases (b : Byte) : cls b = .rm ∨ cls b = .imm ∨ cls b = .none := by
  cases cls b <;> simp

@[simp] theorem cls_imm8_opcode (reg : Index) : cls (0b10110#5 ++ reg) = .imm := by
  revert reg; decide

@[simp] theorem cls_imm16_opcode (reg : Index) : cls (0b10111#5 ++ reg) = .imm := by
  revert reg; decide

@[simp] theorem fieldWi_imm8_opcode (reg : Index) : fieldWi (0b10110#5 ++ reg) = 0#1 := by
  revert reg; decide

@[simp] theorem fieldWi_imm16_opcode (reg : Index) : fieldWi (0b10111#5 ++ reg) = 1#1 := by
  revert reg; decide

@[simp] theorem fieldRegi_imm8_opcode (reg : Index) : fieldRegi (0b10110#5 ++ reg) = reg := by
  revert reg; decide

@[simp] theorem fieldRegi_imm16_opcode (reg : Index) : fieldRegi (0b10111#5 ++ reg) = reg := by
  revert reg; decide

/-- An F-IMM opcode byte is its fixed bits, its width bit and its register. -/
theorem imm_opcode_of_fields (b : Byte) (h : cls b = .imm) :
    b = if fieldWi b = 0#1 then 0b10110#5 ++ fieldRegi b else 0b10111#5 ++ fieldRegi b := by
  revert b; decide

/-- An F-RM opcode byte is one of the four of the d and w bits. -/
theorem rm_opcode_of_fields (b : Byte) (h : cls b = .rm) :
    b = if fieldD b = 0#1 then (if fieldW b = 0#1 then 0x88#8 else 0x89#8)
      else (if fieldW b = 0#1 then 0x8A#8 else 0x8B#8) := by
  revert b; decide

/-! ## The mod-reg-rm byte -/

@[simp] theorem fieldMod_append (md : BitVec 2) (reg rm : Index) : fieldMod (md ++ reg ++ rm) = md := by
  revert md reg rm; decide

@[simp] theorem fieldReg_append (md : BitVec 2) (reg rm : Index) : fieldReg (md ++ reg ++ rm) = reg := by
  revert md reg rm; decide

@[simp] theorem fieldRm_append (md : BitVec 2) (reg rm : Index) : fieldRm (md ++ reg ++ rm) = rm := by
  revert md reg rm; decide

@[simp] theorem fieldMod_encodeModrm (reg : Index) (x : RmForm) : fieldMod (encodeModrm reg x) = x.modBits :=
  fieldMod_append _ _ _

@[simp] theorem fieldReg_encodeModrm (reg : Index) (x : RmForm) : fieldReg (encodeModrm reg x) = reg :=
  fieldReg_append _ _ _

@[simp] theorem fieldRm_encodeModrm (reg : Index) (x : RmForm) : fieldRm (encodeModrm reg x) = x.rmBits :=
  fieldRm_append _ _ _

/-- A byte is its three fields. -/
theorem modrm_of_fields (m : Byte) : fieldMod m ++ fieldReg m ++ fieldRm m = m := by
  revert m; decide

theorem mod_cases (md : BitVec 2) : md = 0b11#2 ∨ md = 0b00#2 ∨ md = 0b01#2 ∨ md = 0b10#2 := by
  revert md; decide

theorem bit_cases (b : Bit) : b = 0#1 ∨ b = 1#1 := by
  revert b; decide

/-! ## Byte order -/

@[simp] theorem lowByte_join (hi lo : Byte) : lowByte (join hi lo) = lo := by
  unfold lowByte join
  ext i h
  simp only [BitVec.getElem_extractLsb', BitVec.getLsbD_append]
  simp [h]

@[simp] theorem highByte_join (hi lo : Byte) : highByte (join hi lo) = hi := by
  unfold highByte join
  ext i h
  simp only [BitVec.getElem_extractLsb', BitVec.getLsbD_append]
  simp [BitVec.getLsbD_eq_getElem h]

@[simp] theorem join_high_low (v : Word16) : join (highByte v) (lowByte v) = v := by
  unfold highByte lowByte join
  ext i h
  simp only [BitVec.getElem_append, BitVec.getElem_extractLsb']
  split
  · simp [BitVec.getLsbD_eq_getElem h]
  · rename_i h'
    have : 8 + (i - 8) = i := by omega
    rw [this, BitVec.getLsbD_eq_getElem h]

theorem join_toNat (hi lo : Byte) : (join hi lo).toNat = hi.toNat * 256 + lo.toNat := by
  unfold join
  rw [BitVec.toNat_append, ← Nat.shiftLeft_add_eq_or_of_lt lo.isLt, Nat.shiftLeft_eq]

/-! ## The decoder -/

theorem decode_rm {b0 : Byte} (h : cls b0 = .rm) (rest : List Byte) : decode (b0 :: rest) = decodeRm b0 rest := by
  simp [decode, h]

theorem decode_imm {b0 : Byte} (h : cls b0 = .imm) (rest : List Byte) : decode (b0 :: rest) = decodeImm b0 rest := by
  simp [decode, h]

theorem decode_none {b0 : Byte} (h : cls b0 = .none) (rest : List Byte) :
    decode (b0 :: rest) = .error .unrecognizedOpcode b0 := by
  simp [decode, h]

/-- Everything the r/m decoder can do: with enough bytes it takes `extra m` of them and answers the form whose fields and
bytes are those; else nothing. -/
theorem decodeRmForm_cases (m : Byte) (ext : List Byte) :
    (ext.length < extra m ∧ decodeRmForm m ext = none) ∨
    ∃ x rest, decodeRmForm m ext = some (x, rest) ∧ ext = x.encodeExtra ++ rest ∧ x.encodeExtra.length = extra m ∧
      x.wellFormed = true ∧ x.modBits = fieldMod m ∧ x.rmBits = fieldRm m := by
  unfold decodeRmForm extra
  rcases mod_cases (fieldMod m) with h | h | h | h <;> rw [h]
  · exact .inr ⟨_, _, rfl, rfl, rfl, rfl, rfl, rfl⟩
  · by_cases hr : fieldRm m = 0b110#3
    · match ext with
      | [] => exact .inl (by simp [hr])
      | [_] => exact .inl (by simp [hr])
      | a0 :: a1 :: rest =>
        exact .inr ⟨.direct (join a1 a0), rest, by simp [hr], by simp [RmForm.encodeExtra], by simp [RmForm.encodeExtra, hr],
          rfl, rfl, hr.symm⟩
    · exact .inr ⟨.base (fieldRm m), ext, by simp [hr], rfl, by simp [RmForm.encodeExtra, hr],
        by simpa [RmForm.wellFormed] using hr, rfl, rfl⟩
  · match ext with
    | [] => exact .inl (by simp)
    | b :: rest => exact .inr ⟨.baseDisp8 (fieldRm m) b, rest, by simp, rfl, rfl, rfl, rfl, rfl⟩
  · match ext with
    | [] => exact .inl (by simp)
    | [_] => exact .inl (by simp)
    | b0 :: b1 :: rest =>
      exact .inr ⟨.baseDisp16 (fieldRm m) (join b1 b0), rest, by simp, by simp [RmForm.encodeExtra], rfl, rfl, rfl, rfl⟩

/-- The r/m decoder reads back a well-formed form from its byte and extra bytes. -/
theorem decodeRmForm_encode (x : RmForm) (reg : Index) (rest : List Byte) (h : x.wellFormed = true) :
    decodeRmForm (encodeModrm reg x) (x.encodeExtra ++ rest) = some (x, rest) := by
  unfold decodeRmForm
  rw [fieldMod_encodeModrm, fieldRm_encodeModrm]
  cases x with
  | reg rm => rfl
  | base rm => simp [RmForm.modBits, RmForm.rmBits, RmForm.encodeExtra, (by simpa [RmForm.wellFormed] using h : rm ≠ 6#3)]
  | direct a => simp [RmForm.modBits, RmForm.rmBits, RmForm.encodeExtra]
  | baseDisp8 rm b => simp [RmForm.modBits, RmForm.rmBits, RmForm.encodeExtra]
  | baseDisp16 rm v => simp [RmForm.modBits, RmForm.rmBits, RmForm.encodeExtra]

@[simp] theorem encodeExtra_length (x : RmForm) : x.encodeExtra.length = x.extraBytes := by
  cases x <;> rfl

/-- A form's fields and extra bytes determine it. -/
theorem encodeModrm_of_fields {x : RmForm} {m : Byte} (hm : x.modBits = fieldMod m) (hr : x.rmBits = fieldRm m) :
    encodeModrm (fieldReg m) x = m := by
  rw [encodeModrm, hm, hr, modrm_of_fields]

/-- More bytes behind a decoded instruction do not change it. -/
theorem decode_append {bs rest : List Byte} {i : Instr} (h : decode bs = .ok i rest) (tail : List Byte) :
    decode (bs ++ tail) = .ok i (rest ++ tail) := by
  match bs with
  | [] => simp [decode] at h
  | b0 :: bs =>
    rcases cls_cases b0 with hc | hc | hc
    · rw [decode_rm hc] at h
      rw [List.cons_append, decode_rm hc]
      match bs with
      | [] => simp [decodeRm] at h
      | m :: ext =>
        simp only [decodeRm, List.cons_append] at h ⊢
        rcases decodeRmForm_cases m ext with ⟨-, hd⟩ | ⟨x, r, hd, he, -, hw, hm, hr⟩
        · simp [hd] at h
        · have := decodeRmForm_encode x (fieldReg m) (r ++ tail) hw
          rw [encodeModrm_of_fields hm hr, ← List.append_assoc, ← he] at this
          rw [hd] at h
          rw [this]
          simp only [DecodeResult.ok.injEq] at h ⊢
          exact ⟨h.1, by rw [h.2]⟩
    · rw [decode_imm hc] at h
      rw [List.cons_append, decode_imm hc]
      unfold decodeImm at h ⊢
      split at h <;> rename_i hw <;> simp only [hw, if_true, if_false]
      · match bs with
        | [] => simp at h
        | i0 :: r => simp_all
      · match bs with
        | [] => simp at h
        | [_] => simp at h
        | i0 :: i1 :: r => simp_all
    · simp [decode_none hc] at h

end Sys2Proof
end

