-- ==== Sys2Proof/Laws/Memory.lean ====
section
/-! SUPPORT. The ByteSource: reading, the canonical form, and that every operation keeps it. -/

namespace Sys2Proof.Machine

@[simp] theorem bytes_ofBytes (start : Nat) (bs : List Byte) : Memory.bytes (Memory.ofBytes start bs) = bs := by
  induction bs generalizing start with
  | nil => rfl
  | cons b bs ih => simpa [Memory.ofBytes, Memory.bytes] using ih (start + 1)

theorem wf_iff {m : Memory} : Memory.wf m = true ↔ m = Memory.ofBytes 0 (Memory.bytes m) := by simp [Memory.wf]

@[simp] theorem ofBytes_wf (bs : List Byte) : Memory.wf (Memory.ofBytes 0 bs) = true := by simp [Memory.wf]

@[simp] theorem place_wf (m : Memory) (start : Nat) (bs : List Byte) : Memory.wf (Memory.place m start bs) = true :=
  ofBytes_wf _

@[simp] theorem empty_wf : Memory.wf [] = true := rfl

theorem read_ofBytes (start : Nat) (bs : List Byte) (k : Nat) :
    Memory.read (Memory.ofBytes start bs) k = if k < start then none else bs[k - start]? := by
  induction bs generalizing start with
  | nil => simp [Memory.ofBytes, Memory.read]
  | cons b bs ih =>
    rw [Memory.ofBytes, Memory.read, ih]
    rcases Nat.lt_trichotomy k start with h | rfl | h
    · have h₁ : start ≠ k := by omega
      have h₂ : k < start + 1 := by omega
      simp [h, h₁, h₂]
    · simp
    · obtain ⟨d, rfl⟩ := Nat.exists_eq_add_of_lt h
      have h₁ : ¬ start + d + 1 < start := by omega
      have h₂ : ¬ start + d + 1 < start + 1 := by omega
      have h₃ : start + d + 1 - start = d + 1 := by omega
      have h₄ : start + d + 1 - (start + 1) = d := by omega
      have h₅ : start ≠ start + d + 1 := by omega
      simp only [if_neg h₁, if_neg h₂, if_neg h₅, h₃, h₄, List.getElem?_cons_succ]

theorem read_of_wf {m : Memory} (h : Memory.wf m = true) (k : Nat) : Memory.read m k = (Memory.bytes m)[k]? := by
  rw [show Memory.read m k = Memory.read (Memory.ofBytes 0 (Memory.bytes m)) k from congrArg (Memory.read · k) (wf_iff.mp h)]
  simp [read_ofBytes]

/-- In the canonical form the offsets rise strictly. -/
theorem wf_offsets_rise {m : Memory} (h : Memory.wf m = true) : (m.map Prod.fst).Pairwise (· < ·) := by
  have key : ∀ (bs : List Byte) (start : Nat),
      (∀ a ∈ (Memory.ofBytes start bs).map Prod.fst, start ≤ a) ∧
        ((Memory.ofBytes start bs).map Prod.fst).Pairwise (· < ·) := by
    intro bs
    induction bs with
    | nil => simp [Memory.ofBytes]
    | cons b bs ih =>
      intro start
      obtain ⟨h₁, h₂⟩ := ih (start + 1)
      refine ⟨?_, ?_⟩
      · intro a ha
        rcases List.mem_cons.mp ha with rfl | ha
        · exact Nat.le_refl _
        · exact Nat.le_of_succ_le (h₁ a ha)
      · exact List.pairwise_cons.mpr ⟨fun a ha => h₁ a ha, h₂⟩
  rw [show m = Memory.ofBytes 0 (Memory.bytes m) from wf_iff.mp h]
  exact (key _ 0).2

/-- The event the driver presents is the first byte not yet consumed. -/
theorem event_of_wf {s : State} (h : Memory.wf s.source = true) :
    s.event = match s.remaining with
      | b :: _ => .byte b
      | [] => .eos := by
  unfold State.event State.remaining
  rw [read_of_wf h]
  cases hd : (Memory.bytes s.source)[s.pos]? with
  | none =>
    rw [List.drop_eq_nil_of_le (List.getElem?_eq_none_iff.mp hd)]
  | some b =>
    obtain ⟨hlt, rfl⟩ := List.getElem?_eq_some_iff.mp hd
    rw [List.drop_eq_getElem_cons hlt]

theorem remaining_advance {s t : State} (hp : t.pos = s.pos + 1) (hs : t.source = s.source) :
    t.remaining = s.remaining.tail := by
  simp [State.remaining, hp, hs, ← List.drop_one, List.drop_drop]

end Sys2Proof.Machine
end

