-- ==== Sys2Proof/Laws/Operands.lean ====
section
/-! SUPPORT. The operand forms of the syntax against the addressing-mode resolver over the bytes. -/

namespace Sys2Proof.Machine

/-- The resolver on a well-formed form's own fields and bytes gives the form's operand (spec/41_mov_rm_reg.md R101 to R105). -/
theorem resolve_of_form (w : Bit) (x : RmForm) (h : x.wellFormed = true) :
    resolve w x.modBits x.rmBits x.encodeExtra = rmOperand w x := by
  cases x with
  | reg => rfl
  | base rm =>
    have : rm ≠ 6#3 := by simpa [RmForm.wellFormed] using h
    simp [resolve, RmForm.modBits, RmForm.rmBits, rmOperand, this]
  | direct a => simp [resolve, RmForm.modBits, RmForm.rmBits, rmOperand, RmForm.encodeExtra, extByte]
  | baseDisp8 => rfl
  | baseDisp16 => simp [resolve, RmForm.modBits, RmForm.rmBits, rmOperand, RmForm.encodeExtra, extByte]

@[simp] theorem zext16_toNat (b : Byte) : (zext16 b).toNat = b.toNat := by
  have := b.isLt
  simp only [zext16, BitVec.toNat_setWidth]
  omega

end Sys2Proof.Machine
end

