-- ==== Sys2Proof/Laws/PerInstr.lean ====
section
/-! SUPPORT. Facts stated for every instruction as syntax: one family, one lemma per constructor of Instr. -/

namespace Sys2Proof.Laws.EncodedLength

/-- An instruction's encoding has `Instr.length` bytes, 2 to 4 of them, and its record's `len` is that number
(spec/30_encoding.md R64; 41_mov_rm_reg.md R107; 42_mov_imm_reg.md R121). -/
def Statement (i : Instr) : Prop :=
  (encode i).length = i.length ∧ 2 ≤ i.length ∧ i.length ≤ 4 ∧ (Machine.recordOf i).len = i.length

theorem movRm8R8 (dst : RmForm) (reg : Index) : Statement (.movRm8R8 dst reg) := by
  cases dst <;> exact ⟨rfl, by simp [Instr.length, RmForm.extraBytes], by simp [Instr.length, RmForm.extraBytes], rfl⟩

theorem movRm16R16 (dst : RmForm) (reg : Index) : Statement (.movRm16R16 dst reg) := by
  cases dst <;> exact ⟨rfl, by simp [Instr.length, RmForm.extraBytes], by simp [Instr.length, RmForm.extraBytes], rfl⟩

theorem movR8Rm8 (reg : Index) (src : RmForm) : Statement (.movR8Rm8 reg src) := by
  cases src <;> exact ⟨rfl, by simp [Instr.length, RmForm.extraBytes], by simp [Instr.length, RmForm.extraBytes], rfl⟩

theorem movR16Rm16 (reg : Index) (src : RmForm) : Statement (.movR16Rm16 reg src) := by
  cases src <;> exact ⟨rfl, by simp [Instr.length, RmForm.extraBytes], by simp [Instr.length, RmForm.extraBytes], rfl⟩

theorem movR8Imm8 (reg : Index) (imm : Byte) : Statement (.movR8Imm8 reg imm) :=
  ⟨rfl, by simp [Instr.length], by simp [Instr.length], rfl⟩

theorem movR16Imm16 (reg : Index) (imm : Word16) : Statement (.movR16Imm16 reg imm) :=
  ⟨rfl, by simp [Instr.length], by simp [Instr.length], rfl⟩

theorem all (i : Instr) : Statement i := by
  cases i with
  | movRm8R8 dst reg => exact movRm8R8 dst reg
  | movRm16R16 dst reg => exact movRm16R16 dst reg
  | movR8Rm8 reg src => exact movR8Rm8 reg src
  | movR16Rm16 reg src => exact movR16Rm16 reg src
  | movR8Imm8 reg imm => exact movR8Imm8 reg imm
  | movR16Imm16 reg imm => exact movR16Imm16 reg imm

end Sys2Proof.Laws.EncodedLength
end

