-- ==== Sys2Proof/Laws/State.lean ====
section
/-! SUPPORT. One lemma per field of State per named update, so that no proof unfolds a record update. -/

namespace Sys2Proof.Machine

variable (s : State)

@[simp] theorem advance_st : (s.advance).st = s.st := rfl
@[simp] theorem advance_opc : (s.advance).opc = s.opc := rfl
@[simp] theorem advance_modrm : (s.advance).modrm = s.modrm := rfl
@[simp] theorem advance_lo : (s.advance).lo = s.lo := rfl
@[simp] theorem advance_pos : (s.advance).pos = s.pos + 1 := rfl
@[simp] theorem advance_out : (s.advance).out = s.out := rfl
@[simp] theorem advance_source : (s.advance).source = s.source := rfl

@[simp] theorem latchOpc_st (b : Byte) : (s.latchOpc b).st = s.st := rfl
@[simp] theorem latchOpc_opc (b : Byte) : (s.latchOpc b).opc = b := rfl
@[simp] theorem latchOpc_modrm (b : Byte) : (s.latchOpc b).modrm = s.modrm := rfl
@[simp] theorem latchOpc_lo (b : Byte) : (s.latchOpc b).lo = s.lo := rfl
@[simp] theorem latchOpc_pos (b : Byte) : (s.latchOpc b).pos = s.pos := rfl
@[simp] theorem latchOpc_out (b : Byte) : (s.latchOpc b).out = s.out := rfl
@[simp] theorem latchOpc_source (b : Byte) : (s.latchOpc b).source = s.source := rfl

@[simp] theorem latchModrm_st (b : Byte) : (s.latchModrm b).st = s.st := rfl
@[simp] theorem latchModrm_opc (b : Byte) : (s.latchModrm b).opc = s.opc := rfl
@[simp] theorem latchModrm_modrm (b : Byte) : (s.latchModrm b).modrm = b := rfl
@[simp] theorem latchModrm_lo (b : Byte) : (s.latchModrm b).lo = s.lo := rfl
@[simp] theorem latchModrm_pos (b : Byte) : (s.latchModrm b).pos = s.pos := rfl
@[simp] theorem latchModrm_out (b : Byte) : (s.latchModrm b).out = s.out := rfl
@[simp] theorem latchModrm_source (b : Byte) : (s.latchModrm b).source = s.source := rfl

@[simp] theorem latchLo_st (b : Byte) : (s.latchLo b).st = s.st := rfl
@[simp] theorem latchLo_opc (b : Byte) : (s.latchLo b).opc = s.opc := rfl
@[simp] theorem latchLo_modrm (b : Byte) : (s.latchLo b).modrm = s.modrm := rfl
@[simp] theorem latchLo_lo (b : Byte) : (s.latchLo b).lo = b := rfl
@[simp] theorem latchLo_pos (b : Byte) : (s.latchLo b).pos = s.pos := rfl
@[simp] theorem latchLo_out (b : Byte) : (s.latchLo b).out = s.out := rfl
@[simp] theorem latchLo_source (b : Byte) : (s.latchLo b).source = s.source := rfl

@[simp] theorem await_st (next : SeqState) : (s.await next).st = next := rfl
@[simp] theorem await_opc (next : SeqState) : (s.await next).opc = s.opc := rfl
@[simp] theorem await_modrm (next : SeqState) : (s.await next).modrm = s.modrm := rfl
@[simp] theorem await_lo (next : SeqState) : (s.await next).lo = s.lo := rfl
@[simp] theorem await_pos (next : SeqState) : (s.await next).pos = s.pos := rfl
@[simp] theorem await_out (next : SeqState) : (s.await next).out = .none := rfl
@[simp] theorem await_source (next : SeqState) : (s.await next).source = s.source := rfl

@[simp] theorem emitInstr_st (r : DecodedInstruction) : (s.emitInstr r).st = .op := rfl
@[simp] theorem emitInstr_opc (r : DecodedInstruction) : (s.emitInstr r).opc = s.opc := rfl
@[simp] theorem emitInstr_modrm (r : DecodedInstruction) : (s.emitInstr r).modrm = s.modrm := rfl
@[simp] theorem emitInstr_lo (r : DecodedInstruction) : (s.emitInstr r).lo = s.lo := rfl
@[simp] theorem emitInstr_pos (r : DecodedInstruction) : (s.emitInstr r).pos = s.pos := rfl
@[simp] theorem emitInstr_out (r : DecodedInstruction) : (s.emitInstr r).out = .instr r := rfl
@[simp] theorem emitInstr_source (r : DecodedInstruction) : (s.emitInstr r).source = s.source := rfl

@[simp] theorem endRun_st : (s.endRun).st = .done := rfl
@[simp] theorem endRun_opc : (s.endRun).opc = s.opc := rfl
@[simp] theorem endRun_modrm : (s.endRun).modrm = s.modrm := rfl
@[simp] theorem endRun_lo : (s.endRun).lo = s.lo := rfl
@[simp] theorem endRun_pos : (s.endRun).pos = s.pos := rfl
@[simp] theorem endRun_out : (s.endRun).out = .endOfStream := rfl
@[simp] theorem endRun_source : (s.endRun).source = s.source := rfl

@[simp] theorem raiseError_st (k : ErrKind) (b : Byte) : (s.raiseError k b).st = .err := rfl
@[simp] theorem raiseError_opc (k : ErrKind) (b : Byte) : (s.raiseError k b).opc = s.opc := rfl
@[simp] theorem raiseError_modrm (k : ErrKind) (b : Byte) : (s.raiseError k b).modrm = s.modrm := rfl
@[simp] theorem raiseError_lo (k : ErrKind) (b : Byte) : (s.raiseError k b).lo = s.lo := rfl
@[simp] theorem raiseError_pos (k : ErrKind) (b : Byte) : (s.raiseError k b).pos = s.pos := rfl
@[simp] theorem raiseError_out (k : ErrKind) (b : Byte) : (s.raiseError k b).out = .error k b := rfl
@[simp] theorem raiseError_source (k : ErrKind) (b : Byte) : (s.raiseError k b).source = s.source := rfl

@[simp] theorem applyReset_st : (s.applyReset).st = .op := rfl
@[simp] theorem applyReset_opc : (s.applyReset).opc = 0x00#8 := rfl
@[simp] theorem applyReset_modrm : (s.applyReset).modrm = 0x00#8 := rfl
@[simp] theorem applyReset_lo : (s.applyReset).lo = 0x00#8 := rfl
@[simp] theorem applyReset_pos : (s.applyReset).pos = 0 := rfl
@[simp] theorem applyReset_out : (s.applyReset).out = .none := rfl
@[simp] theorem applyReset_source : (s.applyReset).source = s.source := rfl

@[simp] theorem loadSource_st (bs : List Byte) : (s.loadSource bs).st = .op := rfl
@[simp] theorem loadSource_opc (bs : List Byte) : (s.loadSource bs).opc = 0x00#8 := rfl
@[simp] theorem loadSource_modrm (bs : List Byte) : (s.loadSource bs).modrm = 0x00#8 := rfl
@[simp] theorem loadSource_lo (bs : List Byte) : (s.loadSource bs).lo = 0x00#8 := rfl
@[simp] theorem loadSource_pos (bs : List Byte) : (s.loadSource bs).pos = 0 := rfl
@[simp] theorem loadSource_out (bs : List Byte) : (s.loadSource bs).out = .none := rfl
@[simp] theorem loadSource_source (bs : List Byte) : (s.loadSource bs).source = Memory.ofBytes 0 bs := rfl

/-! ## Consuming a byte -/

@[simp] theorem consume_st (b : Byte) : (s.consume b).st = s.st := by
  unfold State.consume; split <;> rfl

@[simp] theorem consume_out (b : Byte) : (s.consume b).out = s.out := by
  unfold State.consume; split <;> rfl

@[simp] theorem consume_source (b : Byte) : (s.consume b).source = s.source := by
  unfold State.consume; split <;> rfl

theorem consume_pos (b : Byte) (h : s.st.isFinal = false) : (s.consume b).pos = s.pos + 1 := by
  unfold State.consume; split <;> simp_all [SeqState.isFinal]

theorem consume_opc (b : Byte) : (s.consume b).opc = if s.st = .op then b else s.opc := by
  unfold State.consume; split <;> simp_all

theorem consume_modrm (b : Byte) : (s.consume b).modrm = if s.st = .modrm then b else s.modrm := by
  unfold State.consume; split <;> simp_all

theorem consume_lo (b : Byte) :
    (s.consume b).lo = if s.st = .d16L ∨ s.st = .a16L ∨ s.st = .i16L then b else s.lo := by
  unfold State.consume; split <;> simp_all

end Sys2Proof.Machine
end

