-- ==== Sys2Proof/Laws/Sequencer.lean ====
section
/-! SUPPORT. What the meanings and the sequencer can do, said once. -/

namespace Sys2Proof.Machine

/-- Every meaning emits its instruction's record. -/
theorem exec_eq (i : Instr) (s : State) : exec i s = .next (s.emitInstr (recordOf i)) := by
  cases i <;> rfl

/-- Everything `runComplete` can do when it answers a next state. -/
theorem runComplete_next {bs : List Byte} {s t : State} (h : runComplete bs s = .next t) :
    ∃ i, decode bs = .ok i [] ∧ t = s.emitInstr (recordOf i) := by
  unfold runComplete at h
  split at h
  · next i hd => exact ⟨i, hd, by rw [exec_eq] at h; exact (Host.Outcome.next.inj h).symm⟩
  all_goals exact absurd h (by simp)

/-- `runComplete` on an instruction's bytes. -/
theorem runComplete_of_decode {bs : List Byte} {i : Instr} (h : decode bs = .ok i []) (s : State) :
    runComplete bs s = exec i s := by
  simp [runComplete, h]

/-- The sequencer state after a byte that does not complete an instruction (40_decode_sequencer.md R83). -/
def awaitAfter (b : Byte) (s : State) : Option SeqState :=
  match s.st with
  | .op => afterOpcode b
  | .modrm => afterModrm b
  | .d16L => some .d16H
  | .a16L => some .a16H
  | .i16L => some .i16H
  | .d8 | .d16H | .a16H | .i8 | .i16H | .done | .err => none

/-- Everything a step on a byte can do when it answers a next state: await a further byte, emit the instruction's record, or, at a
boundary, raise `UnrecognizedOpcode`. -/
theorem stepByte_next {b : Byte} {s t : State} (h : stepByte b s = .next t) :
    (∃ next, awaitAfter b s = some next ∧ t = (s.consume b).await next) ∨
    (∃ i, awaitAfter b s = none ∧ decode (s.inflight ++ [b]) = .ok i [] ∧ t = (s.consume b).emitInstr (recordOf i)) ∨
    (s.st = .op ∧ cls b = .none ∧ t = (s.consume b).raiseError .unrecognizedOpcode b) := by
  unfold stepByte at h
  unfold awaitAfter
  split at h
  · next hs =>
    rw [hs]
    split at h
    · next n hn => exact .inl ⟨n, hn, (Host.Outcome.next.inj h).symm⟩
    · next hn =>
      refine .inr (.inr ⟨rfl, ?_, (Host.Outcome.next.inj h).symm⟩)
      revert hn; unfold afterOpcode; cases cls b <;> simp
  · next hs =>
    rw [hs]
    split at h
    · next n hn => exact .inl ⟨n, hn, (Host.Outcome.next.inj h).symm⟩
    · next hn => obtain ⟨i, hd, ht⟩ := runComplete_next h; exact .inr (.inl ⟨i, hn, hd, ht⟩)
  · next hs => rw [hs]; exact .inl ⟨_, rfl, (Host.Outcome.next.inj h).symm⟩
  · next hs => rw [hs]; exact .inl ⟨_, rfl, (Host.Outcome.next.inj h).symm⟩
  · next hs => rw [hs]; exact .inl ⟨_, rfl, (Host.Outcome.next.inj h).symm⟩
  all_goals first
    | contradiction
    | (next hs => rw [hs]; obtain ⟨i, hd, ht⟩ := runComplete_next h; exact .inr (.inl ⟨i, rfl, hd, ht⟩))

/-- The states in which an instruction is in flight. -/
def SeqState.inFlight : SeqState → Bool
  | .modrm | .d8 | .d16L | .d16H | .a16L | .a16H | .i8 | .i16L | .i16H => true
  | .op | .done | .err => false

/-- Everything a step on `EOS` can do when it answers a next state. -/
theorem stepEos_next {s t : State} (h : stepEos s = .next t) :
    (s.st = .op ∧ t = s.endRun) ∨ (s.st.inFlight = true ∧ t = s.raiseError .truncatedInstruction s.opc) := by
  unfold stepEos at h
  split at h
  · next hs => exact .inl ⟨hs, (Host.Outcome.next.inj h).symm⟩
  all_goals first
    | contradiction
    | (next hs => rw [hs]; exact .inr ⟨rfl, (Host.Outcome.next.inj h).symm⟩)

theorem step_eq_of_byte {s : State} {b : Byte} (h : s.event = .byte b) : step s = stepByte b s := by
  rw [step, h]; rfl

theorem step_eq_of_eos {s : State} (h : s.event = .eos) : step s = stepEos s := by
  rw [step, h]; rfl

/-- The bytes in flight are the beginning of an instruction that needs more bytes (60_exceptions.md R149). -/
theorem decode_inflight {s : State} (hc : s.coherent = true) (hs : s.st.inFlight = true) :
    decode s.inflight = .error .truncatedInstruction s.opc := by
  unfold State.coherent at hc
  unfold State.inflight
  split at hc <;> rename_i h <;> rw [h] at hs ⊢ <;>
    simp_all [SeqState.inFlight, decode, decodeRm, decodeRmForm, decodeImm]

/-- A coherent state in which the byte `b` leaves nothing to await completes an instruction with it. -/
theorem decode_of_complete {s : State} {b : Byte} (hc : s.coherent = true) (hs : s.st.inFlight = true)
    (ha : awaitAfter b s = none) : ∃ i, decode (s.inflight ++ [b]) = .ok i [] := by
  unfold State.coherent at hc
  unfold awaitAfter at ha
  unfold State.inflight
  split at hc <;> rename_i h <;> rw [h] at hs ha ⊢ <;>
    simp_all [SeqState.inFlight, decode, decodeRm, decodeRmForm, decodeImm]
  unfold afterModrm at ha
  repeat' split at ha
  all_goals simp_all

/-- Awaiting a further byte: the byte joins the bytes in flight and the latches stay coherent. -/
theorem await_inflight {s : State} {b : Byte} {next : SeqState} (hc : s.coherent = true)
    (ha : awaitAfter b s = some next) :
    ((s.consume b).await next).inflight = s.inflight ++ [b] ∧ ((s.consume b).await next).coherent = true ∧
      next.inFlight = true := by
  unfold State.coherent at hc
  unfold awaitAfter at ha
  split at hc <;> rename_i h <;> rw [h] at ha <;> simp only [reduceCtorEq, Option.some.injEq] at ha
  · unfold afterOpcode at ha
    split at ha <;> simp only [reduceCtorEq, Option.some.injEq] at ha <;> subst ha
    · next hr => simp [State.inflight, State.coherent, SeqState.inFlight, consume_opc, h, hr]
    · next hi =>
      split <;> rename_i hw
      · simp [State.inflight, State.coherent, SeqState.inFlight, consume_opc, h, hi, hw]
      · have := (bit_cases (fieldWi b)).resolve_left hw
        simp [State.inflight, State.coherent, SeqState.inFlight, consume_opc, h, hi, this]
  · simp only [beq_iff_eq] at hc
    unfold afterModrm at ha
    repeat' split at ha
    all_goals simp only [reduceCtorEq, Option.some.injEq] at ha
    all_goals subst ha
    · next h0 h6 => simp [State.inflight, State.coherent, SeqState.inFlight, consume_opc, consume_modrm, h, hc, h0, h6]
    · next h1 => simp [State.inflight, State.coherent, SeqState.inFlight, consume_opc, consume_modrm, h, hc, h1]
    · next h3 h0 h1 =>
      have := (((mod_cases (fieldMod b)).resolve_left h3).resolve_left h0).resolve_left h1
      simp [State.inflight, State.coherent, SeqState.inFlight, consume_opc, consume_modrm, h, hc, this]
  all_goals
    subst ha
    simp_all [State.inflight, State.coherent, SeqState.inFlight, consume_opc, consume_modrm, consume_lo]

/-! ## Steps and runs -/

/-- A step that answers a next state consumed a byte or `EOS`. -/
theorem step_cases {s t : State} (h : step s = .next t) :
    (∃ b, s.event = .byte b ∧ stepByte b s = .next t) ∨ (s.event = .eos ∧ stepEos s = .next t) := by
  cases he : s.event with
  | byte b => exact .inl ⟨b, rfl, by rw [← step_eq_of_byte he, h]⟩
  | eos => exact .inr ⟨rfl, by rw [← step_eq_of_eos he, h]⟩

theorem stepByte_notFinal {b : Byte} {s t : State} (h : stepByte b s = .next t) : s.st.isFinal = false := by
  unfold stepByte at h
  split at h <;> simp_all [SeqState.isFinal]

/-- In a final state the step stops by name. -/
theorem step_final {s : State} (h : s.st.isFinal = true) : ∃ f, step s = .fault f := by
  unfold step stepOn stepByte stepEos
  revert h
  cases s.st <;> simp [SeqState.isFinal] <;> split <;> simp

theorem runSteps_next {s t : State} (k : Nat) (h : step s = .next t) :
    runSteps (k + 1) s = (t.out :: (runSteps k t).1, (runSteps k t).2) := by
  simp [runSteps, h]

theorem runSteps_final {s : State} (k : Nat) (h : s.st.isFinal = true) : runSteps k s = ([], s) := by
  obtain ⟨f, hf⟩ := step_final h
  cases k with
  | zero => rfl
  | succ k => simp [runSteps, hf]

theorem core_run_next {s t : State} (k : Nat) (h : step s = .next t) :
    Host.Core.run Sys2Proof.core (k + 1) s = Host.Core.run Sys2Proof.core k t := by
  have h' : Sys2Proof.core.step s = .next t := h
  simp only [Host.Core.run, h']

end Sys2Proof.Machine
end

