-- ==== Sys2Proof/Tests/Slice0.lean ====
section
/-! SUPPORT. Small tests of the model. Expected values come from the spec's vectors (spec/95_test_vectors.md, named E, V, T, P) or are
written out by hand from the formats of spec/30_encoding.md; the last part shows, for each statement with hypotheses, a state
and operands that meet them. -/

namespace Sys2Proof.Tests

open Sys2Proof Sys2Proof.Machine

/-! ## Helpers -/

/-- The state a step answers, if it answers one. -/
def nextState : Host.Outcome State Fault Refusal → Option State
  | .next t => some t
  | .fault _ => none
  | .refused _ => none

/-- The output event of a step that answers a next state. -/
def outOf (o : Host.Outcome State Fault Refusal) : Option OutEvent := (nextState o).map State.out

/-- The fault a step stops with. -/
def faultOf : Host.Outcome State Fault Refusal → Option Fault
  | .next _ => none
  | .fault f => some f
  | .refused _ => none

/-- The block at a boundary, at offset 0 of a byte sequence. -/
def atStart (bs : List Byte) : State := State.reset.loadSource bs

/-- A block with the first `pos` bytes of `bs` consumed, in the state `st`, the latches given. -/
def inFlight (st : SeqState) (opc modrm lo : Byte) (pos : Nat) (bs : List Byte) : State :=
  { atStart bs with st := st, opc := opc, modrm := modrm, lo := lo, pos := pos }

/-! ## Well-formedness: each check refuses an ill-formed term (41_mov_rm_reg.md R102) -/

theorem test_wellFormed_refuses_base110_movRm8R8 : (Instr.movRm8R8 (.base 0b110#3) 0#3).wellFormed = false := by decide
theorem test_wellFormed_refuses_base110_movRm16R16 : (Instr.movRm16R16 (.base 0b110#3) 0#3).wellFormed = false := by decide
theorem test_wellFormed_refuses_base110_movR8Rm8 : (Instr.movR8Rm8 0#3 (.base 0b110#3)).wellFormed = false := by decide
theorem test_wellFormed_refuses_base110_movR16Rm16 : (Instr.movR16Rm16 0#3 (.base 0b110#3)).wellFormed = false := by decide
theorem test_wellFormed_takes_disp8_110 : (Instr.movRm8R8 (.baseDisp8 0b110#3 0#8) 0#3).wellFormed = true := by decide

/-! ## Decoding: words written bit by bit from the formats (30_encoding.md R57, R58) -/

theorem test_decode_movRm8R8 :
    decode [0b10001000#8, 0b01_101_110#8, 0x00#8] = .ok (.movRm8R8 (.baseDisp8 0b110#3 0x00#8) 0b101#3) [] := by decide
theorem test_decode_movRm16R16 :
    decode [0b10001001#8, 0b10_010_111#8, 0xFF#8, 0x7F#8] = .ok (.movRm16R16 (.baseDisp16 0b111#3 0x7FFF#16) 0b010#3) [] := by
  decide
theorem test_decode_movR8Rm8 :
    decode [0b10001010#8, 0b11_011_001#8, 0xAA#8] = .ok (.movR8Rm8 0b011#3 (.reg 0b001#3)) [0xAA#8] := by decide
theorem test_decode_movR16Rm16 :
    decode [0b10001011#8, 0b00_110_110#8, 0x34#8, 0x12#8] = .ok (.movR16Rm16 0b110#3 (.direct 0x1234#16)) [] := by decide
theorem test_decode_movR8Imm8 : decode [0b10110_111#8, 0xFF#8] = .ok (.movR8Imm8 0b111#3 0xFF#8) [] := by decide
theorem test_decode_movR16Imm16 :
    decode [0b10111_100#8, 0x00#8, 0x80#8] = .ok (.movR16Imm16 0b100#3 0x8000#16) [] := by decide

theorem test_decode_rejects_unrecognized : decode [0x8C#8, 0xC0#8] = .error .unrecognizedOpcode 0x8C#8 := by decide
theorem test_decode_rejects_truncated : decode [0x8B#8, 0x80#8, 0x34#8] = .error .truncatedInstruction 0x8B#8 := by decide
theorem test_decode_empty : decode [] = .endOfStream := by decide

theorem test_encode_modrm : encode (.movRm16R16 (.reg 0b001#3) 0b011#3) = [0x89#8, 0xD9#8] := by decide
theorem test_encode_little_endian : encode (.movR16Imm16 0b001#3 256#16) = [0xB9#8, 0x00#8, 0x01#8] := by decide

/-- The classifier at the edges of its ranges (V2). -/
theorem test_classifier_edges :
    [0x00#8, 0x87#8, 0x88#8, 0x8B#8, 0x8C#8, 0xAF#8, 0xB0#8, 0xBF#8, 0xC0#8, 0xFF#8].map cls =
      [.none, .none, .rm, .rm, .none, .none, .imm, .imm, .none, .none] := by decide

/-! ## Opcode-table words and the fetch interface: the first bytes of the table with zero bits above -/

theorem test_tableWord_0x88 : decodeTableWord 8 0x88 = some (.movRm8R8 (.base 0#3) 0#3) := by decide
theorem test_tableWord_0xB8 : decodeTableWord 8 0xB8 = some (.movR16Imm16 0#3 0#16) := by decide
theorem test_tableWord_second_byte : decodeTableWord 16 0x1E8B = some (.movR16Rm16 0b011#3 (.direct 0#16)) := by decide
theorem test_tableWord_unrecognized : decodeTableWord 8 0x8C = none := by decide

theorem test_fetch_movRm8R8 :
    outOf (step (State.reset.withFetchWord 8 0x88)) =
      some (.instr ⟨.mov, 0#1, .indexedMemory 0#3 .noDisp, .register 0#1 0#3, 2⟩) := by decide
theorem test_fetch_movRm16R16 :
    outOf (step (State.reset.withFetchWord 8 0x89)) =
      some (.instr ⟨.mov, 1#1, .indexedMemory 0#3 .noDisp, .register 1#1 0#3, 2⟩) := by decide
theorem test_fetch_movR8Rm8 :
    outOf (step (State.reset.withFetchWord 8 0x8A)) =
      some (.instr ⟨.mov, 0#1, .register 0#1 0#3, .indexedMemory 0#3 .noDisp, 2⟩) := by decide
theorem test_fetch_movR16Rm16_direct :
    outOf (step (State.reset.withFetchWord 16 0x1E8B)) =
      some (.instr ⟨.mov, 1#1, .register 1#1 0b011#3, .directMemory 0#16, 4⟩) := by decide
theorem test_fetch_movR8Imm8 :
    outOf (step (State.reset.withFetchWord 16 0xFFB0)) =
      some (.instr ⟨.mov, 0#1, .register 0#1 0#3, .immediate 0#1 255#16, 2⟩) := by decide
theorem test_fetch_movR16Imm16 :
    outOf (step (State.reset.withFetchWord 24 0x0001B8)) =
      some (.instr ⟨.mov, 1#1, .register 1#1 0#3, .immediate 1#1 1#16, 3⟩) := by decide

/-! ## Meanings: record, buses and text of one vector each -/

/-- V6, `88 47 80`. -/
theorem test_movRm8R8 :
    outOf (exec (.movRm8R8 (.baseDisp8 0b111#3 0x80#8) 0#3) State.reset) =
      some (.instr ⟨.mov, 0#1, .indexedMemory 0b111#3 (.disp8 0x80#8), .register 0#1 0#3, 3⟩) := by decide
/-- E2, `89 D9`. -/
theorem test_movRm16R16 :
    outOf (exec (.movRm16R16 (.reg 0b001#3) 0b011#3) State.reset) =
      some (.instr ⟨.mov, 1#1, .register 1#1 0b001#3, .register 1#1 0b011#3, 2⟩) := by decide
/-- E4, `8A 40 04`. -/
theorem test_movR8Rm8 :
    outOf (exec (.movR8Rm8 0#3 (.baseDisp8 0#3 0x04#8)) State.reset) =
      some (.instr ⟨.mov, 0#1, .register 0#1 0#3, .indexedMemory 0#3 (.disp8 0x04#8), 3⟩) := by decide
/-- E3, `8B 1E 00 00`. -/
theorem test_movR16Rm16 :
    outOf (exec (.movR16Rm16 0b011#3 (.direct 0#16)) State.reset) =
      some (.instr ⟨.mov, 1#1, .register 1#1 0b011#3, .directMemory 0#16, 4⟩) := by decide
/-- V8, `B4 80`: bit 7 set stays positive. -/
theorem test_movR8Imm8 :
    outOf (exec (.movR8Imm8 0b100#3 0x80#8) State.reset) =
      some (.instr ⟨.mov, 0#1, .register 0#1 0b100#3, .immediate 0#1 128#16, 2⟩) := by decide
/-- V8, `BF FF FF`. -/
theorem test_movR16Imm16 :
    outOf (exec (.movR16Imm16 0b111#3 0xFFFF#16) State.reset) =
      some (.instr ⟨.mov, 1#1, .register 1#1 0b111#3, .immediate 1#1 65535#16, 3⟩) := by decide

/-- V5 and V6: the buses of `8A 80 87 13` and `8B 56 FD`. -/
theorem test_buses :
    ((outSignals (.instr (buildRm 0x8A#8 0x80#8 [0x87#8, 0x13#8]))).dst,
      (outSignals (.instr (buildRm 0x8A#8 0x80#8 [0x87#8, 0x13#8]))).src,
      (outSignals (.instr (buildRm 0x8B#8 0x56#8 [0xFD#8]))).dst,
      (outSignals (.instr (buildRm 0x8B#8 0x56#8 [0xFD#8]))).src) =
    (0x000000#23, 0x421387#23, 0x080000#23, 0x5900FD#23) := by decide
/-- V5, V7: the buses of `89 36 00 80` and `BC 34 12`. -/
theorem test_buses_direct_immediate :
    ((outSignals (.instr (buildRm 0x89#8 0x36#8 [0x00#8, 0x80#8]))).dst,
      (outSignals (.instr (buildImm 0xBC#8 [0x34#8, 0x12#8]))).dst,
      (outSignals (.instr (buildImm 0xBC#8 [0x34#8, 0x12#8]))).src) =
    (0x208000#23, 0x100000#23, 0x601234#23) := by decide

/-! ## Text -/

theorem test_render_E4 : render (buildRm 0x8A#8 0x40#8 [0x04#8]) = "mov al, [bx + si + 4]".toList := by decide
theorem test_render_negative_V6 : render (buildRm 0x89#8 0x97#8 [0x00#8, 0x80#8]) = "mov [bx + -32768], dx".toList := by decide
theorem test_render_zero_V5 : render (buildRm 0x88#8 0x6E#8 [0x00#8]) = "mov [bp + 0], ch".toList := by decide
theorem test_render_direct_V5 : render (buildRm 0x8B#8 0x36#8 [0xFF#8, 0xFF#8]) = "mov si, [65535]".toList := by decide
theorem test_render_E6 : render (buildImm 0xB0#8 [0xFF#8]) = "mov al, 255".toList := by decide
/-- P4: the line before the unrecognized opcode is kept, and nothing is written for it. -/
theorem test_streamText_P4 :
    streamText [0x89#8, 0xD9#8, 0xC6#8, 0x06#8, 0x00#8, 0x00#8, 0x05#8] = "bits 16\nmov cx, bx\n".toList ∧
      streamResult [0x89#8, 0xD9#8, 0xC6#8, 0x06#8, 0x00#8, 0x00#8, 0x05#8] = .err .unrecognizedOpcode 0xC6#8 := by decide

/-! ## Single steps (traces T1, T2, P2, P4 of V11 and Part 3) -/

/-- T1 step 1. -/
theorem test_step_opcode :
    nextState (step (atStart [0x8A#8, 0x40#8, 0x04#8])) =
      some (inFlight .modrm 0x8A#8 0x00#8 0x00#8 1 [0x8A#8, 0x40#8, 0x04#8]) := by decide
/-- T1 step 3. -/
theorem test_step_disp8_completes :
    (nextState (step (inFlight .d8 0x8A#8 0x40#8 0x00#8 2 [0x8A#8, 0x40#8, 0x04#8]))).map
      (fun t => (t.st, t.pos, t.opc, t.modrm, t.lo, t.out)) =
    some (.op, 3, 0x8A#8, 0x40#8, 0x00#8, .instr (buildRm 0x8A#8 0x40#8 [0x04#8])) := by decide
/-- T2 step 2: the direct address is awaited. -/
theorem test_step_modrm_direct :
    nextState (step (inFlight .modrm 0x8B#8 0x00#8 0x00#8 1 [0x8B#8, 0x1E#8, 0x00#8])) =
      some (inFlight .a16L 0x8B#8 0x1E#8 0x00#8 2 [0x8B#8, 0x1E#8, 0x00#8]) := by decide
/-- P1 step 2: the low byte is latched. -/
theorem test_step_imm_low :
    nextState (step (inFlight .i16L 0xB9#8 0x00#8 0x00#8 1 [0xB9#8, 0x03#8, 0x00#8])) =
      some (inFlight .i16H 0xB9#8 0x00#8 0x03#8 2 [0xB9#8, 0x03#8, 0x00#8]) := by decide
/-- P4 step 3. -/
theorem test_step_unrecognized :
    (nextState (step (inFlight .op 0x89#8 0xD9#8 0x00#8 2 [0x89#8, 0xD9#8, 0xC6#8, 0x06#8]))).map
      (fun t => (t.st, t.opc, t.modrm, t.lo, t.out)) =
    some (.err, 0xC6#8, 0xD9#8, 0x00#8, .error .unrecognizedOpcode 0xC6#8) := by decide
/-- T2 step 4, with the signals it drives. -/
theorem test_step_truncated :
    (outOf (step (inFlight .a16H 0x8B#8 0x1E#8 0x00#8 3 [0x8B#8, 0x1E#8, 0x00#8]))).map outSignals =
    some { OutSignals.quiet with valid := 1#1, tag := 0b01#2, err := 1#1, errOpc := 0x8B#8 } := by decide
/-- T1 step 7. -/
theorem test_step_end :
    (outOf (step (inFlight .op 0xB8#8 0x40#8 0x01#8 6 [0x8A#8, 0x40#8, 0x04#8, 0xB8#8, 0x01#8, 0x00#8]))).map outSignals =
    some { OutSignals.quiet with valid := 1#1, tag := 0b10#2 } := by decide
/-- No step in the final states (R80). -/
theorem test_step_final :
    (faultOf (step (inFlight .done 0#8 0#8 0#8 0 [])), faultOf (step (inFlight .err 0#8 0#8 0#8 1 [0x8C#8, 0xC0#8]))) =
    (some .stepInDone, some .stepInErr) := by decide
/-- The model's choice in states no run reaches (log 8): bytes of the other family run, bytes of no instruction stop by name. -/
theorem test_step_unfit_latches :
    (outOf (step (inFlight .i8 0x88#8 0#8 0#8 1 [0x88#8, 0xC0#8])), faultOf (step (inFlight .i8 0x88#8 0#8 0#8 1 [0x88#8, 0x40#8]))) =
    (some (.instr (buildRm 0x88#8 0xC0#8 [])), some .incoherentLatches) := by decide
/-- Reset in the middle of an instruction discards it (R166, R168). -/
theorem test_reset_edge :
    nextState (clockEdge ⟨true, true, false, 0x88#8⟩ (inFlight .d16H 0x8B#8 0x80#8 0x34#8 3 [0x8B#8, 0x80#8, 0x34#8])) =
      some (atStart [0x8B#8, 0x80#8, 0x34#8]) := by decide
/-- An edge with nothing presented keeps the state (R17). -/
theorem test_idle_edge :
    nextState (clockEdge ⟨false, false, false, 0x88#8⟩ (inFlight .d8 0x8A#8 0x40#8 0x00#8 2 [0x8A#8, 0x40#8])) =
      some (inFlight .d8 0x8A#8 0x40#8 0x00#8 2 [0x8A#8, 0x40#8]) := by decide
/-- The canonical form refuses a gap. -/
theorem test_source_form : (Memory.wf [(0, 0x88#8), (1, 0x07#8)], Memory.wf [(0, 0x88#8), (2, 0x07#8)]) = (true, false) := by decide

/-! ## Witnesses: the hypotheses of each statement hold together -/

theorem test_witness_DecodeOfEncodeIsTheInstruction : (Instr.movRm8R8 (.base 0b111#3) 0#3).wellFormed = true := by decide
theorem test_witness_EncodeOfDecodeIsTheBytes : decode [0x88#8, 0x07#8] = .ok (.movRm8R8 (.base 0b111#3) 0#3) [] := by decide
/-- One witness for each clause of the length table. -/
theorem test_witness_LengthFollowsFirstTwoBytes :
    decode [0x8B#8, 0xC7#8] = .ok (.movR16Rm16 0#3 (.reg 0b111#3)) [] ∧
    decode [0x8B#8, 0x07#8] = .ok (.movR16Rm16 0#3 (.base 0b111#3)) [] ∧
    decode [0x8B#8, 0x06#8, 0x34#8, 0x12#8] = .ok (.movR16Rm16 0#3 (.direct 0x1234#16)) [] ∧
    decode [0x8B#8, 0x46#8, 0x05#8] = .ok (.movR16Rm16 0#3 (.baseDisp8 0b110#3 0x05#8)) [] ∧
    decode [0x8B#8, 0x86#8, 0x34#8, 0x12#8] = .ok (.movR16Rm16 0#3 (.baseDisp16 0b110#3 0x1234#16)) [] ∧
    decode [0xB7#8, 0x7F#8] = .ok (.movR8Imm8 0b111#3 0x7F#8) [] ∧
    decode [0xB8#8, 0x34#8, 0x12#8] = .ok (.movR16Imm16 0#3 0x1234#16) [] := by decide
theorem test_witness_TwoByteFieldsAreLittleEndian :
    (cls 0x88#8 = .rm ∧ fieldMod 0x06#8 = 0b00#2 ∧ fieldRm 0x06#8 = 0b110#3) ∧
    (cls 0x8B#8 = .rm ∧ fieldMod 0x80#8 = 0b10#2) ∧ (cls 0xBF#8 = .imm ∧ fieldWi 0xBF#8 = 1#1) := by decide
theorem test_witness_RegMemBytesRunAsBuildRm :
    (cls 0x88#8 = .rm ∧ [0x00#8, 0x00#8].length = extra 0x06#8) ∧ (cls 0x8B#8 = .rm ∧ ([] : List Byte).length = extra 0xFF#8) := by decide
theorem test_witness_ImmediateBytesRunAsBuildImm :
    (cls 0xB0#8 = .imm ∧ (0xB0#8 : Byte).extractLsb' 3 1 = 0#1) ∧ (cls 0xBF#8 = .imm ∧ (0xBF#8 : Byte).extractLsb' 3 1 = 1#1) := by
  decide
/-- Each r/m form is met by a well-formed term, so the four completion statements over r/m forms speak of every form. -/
theorem test_witness_RegMemCompletes :
    ([.reg 0b110#3, .base 0b111#3, .direct 0xFFFF#16, .baseDisp8 0b110#3 0#8, .baseDisp16 0b110#3 0x8000#16] : List RmForm).all
      RmForm.wellFormed = true := by decide
theorem test_witness_InstructionFrame :
    exec (.movR8Imm8 0#3 1#8) State.reset = .next (State.reset.emitInstr (recordOf (.movR8Imm8 0#3 1#8))) := rfl
/-- Also the hypotheses of `InstrOnlyWithTheLastByte`: a step that emits a record. -/
theorem test_witness_EmittedRecordsAreSound :
    outOf (step (inFlight .i8 0xB0#8 0#8 0#8 1 [0xB0#8, 0xFF#8])) = some (.instr (buildImm 0xB0#8 [0xFF#8])) := by decide
/-- One witness in `MODRM` and one in a state that latches nothing. -/
theorem test_witness_StepRunsTheDecodedInstruction :
    ((inFlight .modrm 0x89#8 0#8 0#8 1 [0x89#8, 0xD9#8]).coherent = true ∧
      (inFlight .modrm 0x89#8 0#8 0#8 1 [0x89#8, 0xD9#8]).event = .byte 0xD9#8 ∧
      decode ((inFlight .modrm 0x89#8 0#8 0#8 1 [0x89#8, 0xD9#8]).inflight ++ [0xD9#8]) =
        .ok (.movRm16R16 (.reg 0b001#3) 0b011#3) []) ∧
    ((inFlight .i16H 0xB8#8 0#8 0x01#8 2 [0xB8#8, 0x01#8, 0x00#8]).coherent = true ∧
      (inFlight .i16H 0xB8#8 0#8 0x01#8 2 [0xB8#8, 0x01#8, 0x00#8]).event = .byte 0x00#8 ∧
      decode ((inFlight .i16H 0xB8#8 0#8 0x01#8 2 [0xB8#8, 0x01#8, 0x00#8]).inflight ++ [0x00#8]) =
        .ok (.movR16Imm16 0#3 1#16) []) := by decide
/-- Also the hypotheses of `EveryEnabledStepCompletes` and `ClockEdgeKeepsLatchesCoherent`: a coherent state of every kind that takes
steps. -/
theorem test_witness_StepIsTheSequencerOfR82 :
    ([inFlight .op 0#8 0#8 0#8 0 [], inFlight .modrm 0x88#8 0#8 0#8 1 [], inFlight .d8 0x88#8 0x40#8 0#8 2 [],
      inFlight .d16L 0x88#8 0x80#8 0#8 2 [], inFlight .d16H 0x88#8 0x80#8 0#8 3 [], inFlight .a16L 0x88#8 0x06#8 0#8 2 [],
      inFlight .a16H 0x88#8 0x06#8 0#8 3 [], inFlight .i8 0xB0#8 0#8 0#8 1 [], inFlight .i16L 0xB8#8 0#8 0#8 1 [],
      inFlight .i16H 0xB8#8 0#8 0#8 2 []] : List State).all (fun s => s.coherent && s.inReady) = true := by decide
theorem test_witness_InstructionRunsInLenSteps :
    (Instr.movR16Rm16 0b011#3 (.direct 0x0010#16)).wellFormed = true ∧
    (atStart [0x8B#8, 0x1E#8, 0x10#8, 0x00#8, 0x89#8]).st = .op ∧
    Memory.wf (atStart [0x8B#8, 0x1E#8, 0x10#8, 0x00#8, 0x89#8]).source = true ∧
    (atStart [0x8B#8, 0x1E#8, 0x10#8, 0x00#8, 0x89#8]).remaining =
      encode (.movR16Rm16 0b011#3 (.direct 0x0010#16)) ++ [0x89#8] := by decide
/-- The bytes next to the two families, each at a boundary. -/
theorem test_witness_UnrecognizedOpcodeIsRaised :
    ([0x87#8, 0x8C#8, 0xAF#8, 0xC0#8] : List Byte).all (fun b =>
      (atStart [b]).st == .op && (atStart [b]).event == .byte b && !(decide (0x88 ≤ b.toNat ∧ b.toNat ≤ 0x8B)) &&
        !(decide (0xB0 ≤ b.toNat ∧ b.toNat ≤ 0xBF)) &&
        outOf (step (atStart [b])) == some (.error .unrecognizedOpcode b)) = true := by decide
/-- Every state with an instruction in flight meets `EOS` and raises the error (V9). -/
theorem test_witness_TruncatedInstructionIsRaised :
    ([inFlight .modrm 0x88#8 0#8 0#8 1 [0x88#8], inFlight .d8 0x8B#8 0x40#8 0#8 2 [0x8B#8, 0x40#8],
      inFlight .d16L 0x8B#8 0x80#8 0#8 2 [0x8B#8, 0x80#8], inFlight .d16H 0x8B#8 0x80#8 0x34#8 3 [0x8B#8, 0x80#8, 0x34#8],
      inFlight .a16L 0x8B#8 0x06#8 0#8 2 [0x8B#8, 0x06#8], inFlight .a16H 0x8B#8 0x06#8 0x34#8 3 [0x8B#8, 0x06#8, 0x34#8],
      inFlight .i8 0xB0#8 0#8 0#8 1 [0xB0#8], inFlight .i16L 0xB8#8 0#8 0#8 1 [0xB8#8],
      inFlight .i16H 0xB8#8 0#8 0x34#8 2 [0xB8#8, 0x34#8]] : List State).all (fun s =>
        s.event == .eos && outOf (step s) == some (.error .truncatedInstruction s.opc)) = true := by decide
theorem test_witness_EndOfStreamAtABoundaryIsNoError :
    (atStart []).st = .op ∧ (atStart []).event = .eos ∧ outOf (step (atStart [])) = some .endOfStream := by decide
theorem test_witness_FinalStatesTakeNoStep :
    (inFlight .done 0#8 0#8 0#8 0 []).st = .done ∧ (inFlight .err 0#8 0#8 0#8 1 [0x00#8]).st = .err := by decide
/-- A step on a byte and a step on `EOS`, neither ending in `ERR`. -/
theorem test_witness_StepFrame :
    ((nextState (step (atStart [0x88#8]))).map (fun t => (t.st, t.pos)) = some (.modrm, 1) ∧ (atStart [0x88#8]).event = .byte 0x88#8) ∧
    ((nextState (step (atStart []))).map (fun t => (t.st, t.pos)) = some (.done, 0) ∧ (atStart []).event = .eos) := by decide
/-- Edges of each kind: reset, a byte, `EOS`, nothing presented, not ready, and the driver's own next event. -/
theorem test_witness_ClockEdge :
    (⟨true, true, false, 0#8⟩ : InSignals).rst = true ∧
    ((⟨false, true, false, 0x88#8⟩ : InSignals).event = (atStart [0x88#8]).event ∧ (atStart [0x88#8]).inReady = true) ∧
    ((⟨false, true, true, 0x88#8⟩ : InSignals).event = (atStart []).event ∧ (atStart []).inReady = true) ∧
    (⟨false, false, false, 0#8⟩ : InSignals).inValid = false ∧ (inFlight .done 0#8 0#8 0#8 0 []).inReady = false := by decide
/-- A first byte of each class. -/
theorem test_witness_FirstByteAfterResetIsAnOpcode :
    cls 0x88#8 = .rm ∧ (cls 0xB7#8 = .imm ∧ fieldWi 0xB7#8 = 0#1) ∧ (cls 0xB8#8 = .imm ∧ fieldWi 0xB8#8 = 1#1) ∧
    cls 0x87#8 = .none := by decide
/-- A state in flight that meets the invariant and takes a step; also for `EveryRunEnds`. -/
theorem test_witness_StepKeepsInvariant :
    (inFlight .d16H 0x8B#8 0x80#8 0x34#8 3 [0x8B#8, 0x80#8, 0x34#8, 0x12#8]).Inv ∧
    step (inFlight .d16H 0x8B#8 0x80#8 0x34#8 3 [0x8B#8, 0x80#8, 0x34#8, 0x12#8]) =
      .next { inFlight .op 0x8B#8 0x80#8 0x34#8 4 [0x8B#8, 0x80#8, 0x34#8, 0x12#8] with
        out := .instr (buildRm 0x8B#8 0x80#8 [0x34#8, 0x12#8]) } :=
  ⟨⟨by decide, by decide, fun _ => by decide, fun h => by cases h⟩, rfl⟩
/-- Each clause of the loop of `decode_stream`. -/
theorem test_witness_DecodeStreamMeetsItsLoop :
    decodeOne [] 0 = .endOfStream ∧ decodeOne [0x8C#8] 0 = .err .unrecognizedOpcode 0x8C#8 ∧
    decodeOne [0xB0#8, 0xFF#8] 0 = .ok (buildImm 0xB0#8 [0xFF#8]) := by decide
theorem test_witness_DecodeStreamOfEncodedInstructions :
    ∀ i ∈ [Instr.movR8Imm8 0#3 0xFF#8, .movRm16R16 (.reg 0b001#3) 0b011#3], i.wellFormed = true := by decide
theorem test_witness_ErrorOrEndComesLastInARun :
    (runSteps 3 (atStart [0x8C#8, 0xC0#8])).1 = [] ++ .error .unrecognizedOpcode 0x8C#8 :: [] ∧
    (runSteps 3 (atStart [])).1 = [] ++ .endOfStream :: [] := by decide
/-- Two different states at a boundary with the same bytes to come. -/
theorem test_witness_OutputsDependOnlyOnBytesToCome :
    (atStart [0xB0#8, 0xFF#8]).st = .op ∧ (inFlight .op 0x89#8 0xD9#8 0x12#8 2 [0x89#8, 0xD9#8, 0xB0#8, 0xFF#8]).st = .op ∧
    Memory.wf (atStart [0xB0#8, 0xFF#8]).source = true ∧
    Memory.wf (inFlight .op 0x89#8 0xD9#8 0x12#8 2 [0x89#8, 0xD9#8, 0xB0#8, 0xFF#8]).source = true ∧
    (atStart [0xB0#8, 0xFF#8]).remaining = (inFlight .op 0x89#8 0xD9#8 0x12#8 2 [0x89#8, 0xD9#8, 0xB0#8, 0xFF#8]).remaining := by
  decide
theorem test_witness_OutputsFollowTheBytesConsumed :
    [0x8B#8, 0x06#8, 0x00#8].take 2 = [0x8B#8, 0x06#8].take 2 := by decide
theorem test_witness_PlacedWordRunsNext : decodeTableWord 16 0x1E8B = some (.movR16Rm16 0b011#3 (.direct 0#16)) := by decide
theorem test_witness_OutputSignalsCarryTheRecord :
    outSignals (.instr (recordOf (.movRm16R16 (.reg 1#3) 0#3))) = outSignals (.instr (recordOf (.movR16Rm16 1#3 (.reg 0#3)))) := by
  decide

end Sys2Proof.Tests
end

/-! ## Proofs of the state family: how the sequencer steps

The forms a step takes, stated in the forward direction, and what it leaves unchanged. They complete the inversion lemmas
`stepByte_next` and `stepEos_next`. -/

namespace Sys2Proof.Machine

theorem afterOpcode_eq_none {b : Byte} : afterOpcode b = none ↔ cls b = .none := by
  unfold afterOpcode
  cases cls b <;> simp

theorem inFlight_of_not_op {st : SeqState} (hf : st.isFinal = false) (ho : st ≠ .op) : st.inFlight = true := by
  cases st <;> simp_all [SeqState.isFinal, SeqState.inFlight]

/-- What a byte leaves to await depends on the sequencer state and the byte alone. -/
theorem awaitAfter_congr {s t : State} (h : s.st = t.st) (b : Byte) : awaitAfter b s = awaitAfter b t := by
  unfold awaitAfter
  rw [h]

theorem stepByte_of_await {b : Byte} {s : State} {next : SeqState} (h : awaitAfter b s = some next) :
    stepByte b s = .next ((s.consume b).await next) := by
  unfold awaitAfter at h
  unfold stepByte
  split at h <;> rename_i hs <;> simp_all

theorem stepByte_of_unrecognized {b : Byte} {s : State} (hs : s.st = .op) (hc : cls b = .none) :
    stepByte b s = .next ((s.consume b).raiseError .unrecognizedOpcode b) := by
  simp [stepByte, hs, afterOpcode_eq_none.mpr hc]

theorem stepByte_of_complete {b : Byte} {s : State} {i : Instr} (hf : s.st.inFlight = true) (ha : awaitAfter b s = none)
    (hd : decode (s.inflight ++ [b]) = .ok i []) :
    stepByte b s = .next ((s.consume b).emitInstr (recordOf i)) := by
  have hrun : stepByte b s = runComplete (s.inflight ++ [b]) (s.consume b) := by
    unfold awaitAfter at ha
    unfold stepByte
    split at ha <;> rename_i hs <;> simp_all [SeqState.inFlight]
  rw [hrun, runComplete_of_decode hd, exec_eq]

theorem stepEos_of_op {s : State} (h : s.st = .op) : stepEos s = .next s.endRun := by
  simp [stepEos, h]

theorem stepEos_of_inFlight {s : State} (h : s.st.inFlight = true) :
    stepEos s = .next (s.raiseError .truncatedInstruction s.opc) := by
  unfold stepEos
  split <;> rename_i hs <;> simp_all [SeqState.inFlight]

/-- One byte is no instruction (30_encoding.md R64). -/
theorem decode_singleton (b : Byte) (i : Instr) (rest : List Byte) : decode [b] ≠ .ok i rest := by
  rcases cls_cases b with hc | hc | hc
  · simp [decode_rm hc, decodeRm]
  · simp [decode_imm hc, decodeImm]
  · simp [decode_none hc]

/-- Only a state with an instruction in flight completes one. -/
theorem inFlight_of_decode {s : State} {b : Byte} {i : Instr} (h : decode (s.inflight ++ [b]) = .ok i []) :
    s.st.inFlight = true := by
  unfold State.inflight at h
  split at h <;> rename_i hs <;> simp_all [SeqState.inFlight, decode_singleton]

/-! ## What a step leaves unchanged -/

/-- Apart from `st` and `out`, a step on a byte only consumes it. -/
theorem stepByte_frame {b : Byte} {s t : State} (h : stepByte b s = .next t) :
    t.opc = (s.consume b).opc ∧ t.modrm = (s.consume b).modrm ∧ t.lo = (s.consume b).lo ∧
      t.pos = s.pos + 1 ∧ t.source = s.source := by
  have hp := consume_pos s b (stepByte_notFinal h)
  obtain ⟨_, -, rfl⟩ | ⟨_, -, -, rfl⟩ | ⟨-, -, rfl⟩ := stepByte_next h <;> simp [hp]

/-- Apart from `st` and `out`, a step on `EOS` changes nothing. -/
theorem stepEos_frame {s t : State} (h : stepEos s = .next t) :
    t.opc = s.opc ∧ t.modrm = s.modrm ∧ t.lo = s.lo ∧ t.pos = s.pos ∧ t.source = s.source := by
  obtain ⟨-, rfl⟩ | ⟨-, rfl⟩ := stepEos_next h <;> simp

theorem step_source {s t : State} (h : step s = .next t) : t.source = s.source := by
  obtain ⟨b, -, hb⟩ | ⟨-, he⟩ := step_cases h
  · obtain ⟨-, -, -, -, hs⟩ := stepByte_frame hb
    exact hs
  · obtain ⟨-, -, -, -, hs⟩ := stepEos_frame he
    exact hs

/-! ## Coherent latches -/

theorem coherent_of_op {s : State} (h : s.st = .op) : s.coherent = true := by simp [State.coherent, h]

theorem coherent_of_final {s : State} (h : s.st.isFinal = true) : s.coherent = true := by
  unfold State.coherent
  split <;> rename_i hs <;> simp_all [SeqState.isFinal]

theorem stepByte_coherent {b : Byte} {s t : State} (hc : s.coherent = true) (h : stepByte b s = .next t) :
    t.coherent = true := by
  obtain ⟨next, ha, rfl⟩ | ⟨i, -, -, rfl⟩ | ⟨-, -, rfl⟩ := stepByte_next h
  · exact (await_inflight hc ha).2.1
  · exact coherent_of_op rfl
  · exact coherent_of_final rfl

theorem stepEos_coherent {s t : State} (h : stepEos s = .next t) : t.coherent = true := by
  obtain ⟨-, rfl⟩ | ⟨-, rfl⟩ := stepEos_next h <;> exact coherent_of_final rfl

theorem stepOn_coherent {ev : Event} {s t : State} (hc : s.coherent = true) (h : stepOn ev s = .next t) :
    t.coherent = true := by
  cases ev with
  | byte b => exact stepByte_coherent hc h
  | eos => exact stepEos_coherent h

theorem step_coherent {s t : State} (hc : s.coherent = true) (h : step s = .next t) : t.coherent = true :=
  stepOn_coherent hc h

/-- From coherent latches, a byte has a next state outside `DONE` and `ERR` (40_decode_sequencer.md R79). -/
theorem stepByte_progress {s : State} (b : Byte) (hc : s.coherent = true) (hf : s.st.isFinal = false) :
    ∃ t, stepByte b s = .next t := by
  cases ha : awaitAfter b s with
  | some next => exact ⟨_, stepByte_of_await ha⟩
  | none =>
    by_cases hop : s.st = .op
    · have hcls : cls b = .none := by simpa [awaitAfter, hop, afterOpcode_eq_none] using ha
      exact ⟨_, stepByte_of_unrecognized hop hcls⟩
    · have hin := inFlight_of_not_op hf hop
      obtain ⟨i, hd⟩ := decode_of_complete hc hin ha
      exact ⟨_, stepByte_of_complete hin ha hd⟩

theorem stepEos_progress {s : State} (hf : s.st.isFinal = false) : ∃ t, stepEos s = .next t := by
  by_cases hop : s.st = .op
  · exact ⟨_, stepEos_of_op hop⟩
  · exact ⟨_, stepEos_of_inFlight (inFlight_of_not_op hf hop)⟩

theorem stepOn_progress {s : State} (ev : Event) (hc : s.coherent = true) (hf : s.st.isFinal = false) :
    ∃ t, stepOn ev s = .next t := by
  cases ev with
  | byte b => exact stepByte_progress b hc hf
  | eos => exact stepEos_progress hf

/-! ## The block's invariant -/

theorem event_byte_iff {s : State} (hw : Memory.wf s.source = true) {b : Byte} :
    s.event = .byte b ↔ (Memory.bytes s.source)[s.pos]? = some b := by
  rw [State.event, read_of_wf hw]
  cases (Memory.bytes s.source)[s.pos]? <;> simp

theorem event_eos_iff {s : State} (hw : Memory.wf s.source = true) :
    s.event = .eos ↔ (Memory.bytes s.source).length ≤ s.pos := by
  rw [State.event, read_of_wf hw, ← List.getElem?_eq_none_iff]
  cases (Memory.bytes s.source)[s.pos]? <;> simp

/-- The bytes in flight end the bytes consumed so far. -/
theorem consumedInflight_iff {s : State} :
    s.consumedInflight = true ↔
      s.pos ≤ (Memory.bytes s.source).length ∧ s.inflight <:+ (Memory.bytes s.source).take s.pos := by
  simp only [State.consumedInflight, slice, Bool.and_eq_true, decide_eq_true_eq, beq_iff_eq, ← List.drop_take]
  constructor
  · rintro ⟨⟨-, hp⟩, hi⟩
    refine ⟨hp, ?_⟩
    rw [hi]
    exact List.drop_suffix _ _
  · rintro ⟨hp, hi⟩
    have hlen : ((Memory.bytes s.source).take s.pos).length = s.pos := List.length_take_of_le hp
    have hdrop := List.suffix_iff_eq_drop.mp hi
    rw [hlen] at hdrop
    exact ⟨⟨hlen ▸ hi.length_le, hp⟩, hdrop⟩

theorem consumedInflight_of_nil {s : State} (hi : s.inflight = []) (hp : s.pos ≤ (Memory.bytes s.source).length) :
    s.consumedInflight = true := by
  rw [consumedInflight_iff, hi]
  exact ⟨hp, List.nil_suffix⟩

/-- Consuming the byte presented makes it the last of the bytes consumed. -/
theorem consumedInflight_of_append {s t : State} {b : Byte} (hb : (Memory.bytes s.source)[s.pos]? = some b)
    (hs : s.consumedInflight = true) (hsrc : t.source = s.source) (hpos : t.pos = s.pos + 1)
    (hin : t.inflight = s.inflight ++ [b]) : t.consumedInflight = true := by
  obtain ⟨-, hi⟩ := consumedInflight_iff.mp hs
  obtain ⟨hlt, -⟩ := List.getElem?_eq_some_iff.mp hb
  rw [consumedInflight_iff, hsrc, hpos, hin, List.take_add_one, hb]
  exact ⟨hlt, List.suffix_append_self_iff.mpr hi⟩

/-- The invariant at a boundary: only the ByteSource's form and the stream position are left to check. -/
theorem inv_of_op {s : State} (hst : s.st = .op) (hw : Memory.wf s.source = true)
    (hp : s.pos ≤ (Memory.bytes s.source).length) : s.Inv :=
  ⟨hw, coherent_of_op hst, fun _ => consumedInflight_of_nil (by simp [State.inflight, hst]) hp, fun h => by simp [hst] at h⟩

theorem inv_of_err {s : State} (hst : s.st = .err) (hw : Memory.wf s.source = true) : s.Inv :=
  ⟨hw, coherent_of_final (by simp [hst, SeqState.isFinal]), fun h => absurd hst h, fun h => by simp [hst] at h⟩

theorem stepByte_inv {b : Byte} {s t : State} (hs : s.Inv) (hev : s.event = .byte b) (h : stepByte b s = .next t) :
    t.Inv := by
  obtain ⟨hw, hc, hin, -⟩ := hs
  obtain ⟨-, -, -, hpos, hsrc⟩ := stepByte_frame h
  have hb := (event_byte_iff hw).mp hev
  obtain ⟨hlt, -⟩ := List.getElem?_eq_some_iff.mp hb
  have hwt : Memory.wf t.source = true := hsrc ▸ hw
  have hpt : t.pos ≤ (Memory.bytes t.source).length := by rw [hpos, hsrc]; exact hlt
  obtain ⟨next, ha, rfl⟩ | ⟨i, -, -, rfl⟩ | ⟨-, -, rfl⟩ := stepByte_next h
  · obtain ⟨happ, hct, hnext⟩ := await_inflight hc ha
    have hne : s.st ≠ .err := fun he => by simp [awaitAfter, he] at ha
    refine ⟨hwt, hct, fun _ => consumedInflight_of_append hb (hin hne) hsrc hpos happ, fun hd => ?_⟩
    rw [await_st] at hd
    simp [hd, SeqState.inFlight] at hnext
  · exact inv_of_op rfl hwt hpt
  · exact inv_of_err rfl hwt

theorem stepEos_inv {s t : State} (hs : s.Inv) (hev : s.event = .eos) (h : stepEos s = .next t) : t.Inv := by
  obtain ⟨hw, -, hin, -⟩ := hs
  obtain ⟨hop, rfl⟩ | ⟨-, rfl⟩ := stepEos_next h
  · have hle := (consumedInflight_iff.mp (hin (by simp [hop]))).1
    have hge := (event_eos_iff hw).mp hev
    exact ⟨hw, coherent_of_final rfl, fun _ => consumedInflight_of_nil rfl hle, fun _ => Nat.le_antisymm hle hge⟩
  · exact inv_of_err rfl hw

/-- Settles O33: a byte joins the bytes in flight and the bytes consumed together, and `EOS` is met at the end of the stream. -/
theorem stepKeepsInvariant : Obligations.StepKeepsInvariant := by
  intro s t hs h
  obtain ⟨b, hev, hb⟩ | ⟨hev, he⟩ := step_cases h
  · exact stepByte_inv hs hev hb
  · exact stepEos_inv hs hev he

/-- Settles O32: both states stand at a boundary with nothing consumed. -/
theorem invariantAtReset : Obligations.InvariantAtReset :=
  ⟨inv_of_op rfl empty_wf (Nat.zero_le _), fun _ bs => inv_of_op rfl (ofBytes_wf bs) (Nat.zero_le _)⟩

/-- Settles O27: consuming a byte writes only the latch its sequencer state names, and `EOS` writes none. -/
theorem stepFrame : Obligations.StepFrame := by
  intro s t h
  refine ⟨fun a => by rw [step_source h], ?_⟩
  obtain ⟨b, hev, hb⟩ | ⟨hev, he⟩ := step_cases h
  · obtain ⟨hopc, hmodrm, hlo, hpos, -⟩ := stepByte_frame hb
    simp +contextual [hev, hopc, hmodrm, hlo, hpos, consume_opc, consume_modrm, consume_lo]
  · obtain ⟨hopc, hmodrm, hlo, hpos, -⟩ := stepEos_frame he
    simp [hev, hopc, hmodrm, hlo, hpos]

/-! ## Clock edges -/

theorem clockEdge_of_rst {p : InSignals} (h : p.rst = true) (s : State) : clockEdge p s = .next s.applyReset := by
  simp [clockEdge, h]

theorem clockEdge_of_step {p : InSignals} {s : State} (hr : p.rst = false) (hv : p.inValid = true)
    (hready : s.inReady = true) : clockEdge p s = stepOn p.event s := by
  simp [clockEdge, hr, hv, hready]

theorem clockEdge_of_idle {p : InSignals} {s : State} (hr : p.rst = false) (h : p.inValid = false ∨ s.inReady = false) :
    clockEdge p s = .next { s with out := .none } := by
  rcases h with h | h <;> simp [clockEdge, hr, h]

/-- Settles O34, by the three kinds of edge: reset, step and idle. -/
theorem clockEdgeKeepsLatchesCoherent : Obligations.ClockEdgeKeepsLatchesCoherent := by
  intro s p hc
  by_cases hr : p.rst = true
  · exact ⟨_, clockEdge_of_rst hr s, coherent_of_op rfl⟩
  rw [Bool.not_eq_true] at hr
  by_cases hstep : p.inValid = true ∧ s.inReady = true
  · obtain ⟨hv, hready⟩ := hstep
    obtain ⟨t, ht⟩ := stepOn_progress p.event hc (by simpa [State.inReady] using hready)
    exact ⟨t, (clockEdge_of_step hr hv hready).trans ht, stepOn_coherent hc ht⟩
  · have hidle : p.inValid = false ∨ s.inReady = false := by
      simpa only [not_and_or, Bool.not_eq_true] using hstep
    exact ⟨_, clockEdge_of_idle hr hidle, hc⟩

/-- Settles O30, from the two kinds of edge without reset. -/
theorem clockEdgeIsAStepWhenValidAndReady : Obligations.ClockEdgeIsAStepWhenValidAndReady := by
  intro s p hr
  refine ⟨fun hv hready he => ?_, fun hv hready he => ?_, fun h => ⟨clockEdge_of_idle hr h, rfl⟩, fun hready hv he => ?_⟩
  · rw [clockEdge_of_step hr hv hready, InSignals.event, if_neg (by simp [he])]
  · rw [clockEdge_of_step hr hv hready, InSignals.event, if_pos he]
  · rw [clockEdge_of_step hr hv hready, he, step]

end Sys2Proof.Machine

/-! ## Proofs of the state family: the records

The operands and the length of an instruction's record (10_state.md R32 to R34). -/

namespace Sys2Proof.Machine

/-- The width an operand carries, where it carries one, is `w`. -/
def Operand.HasWidth (w : Bit) : Operand → Prop
  | .register w' _ => w' = w
  | .immediate w' _ => w' = w
  | .directMemory _ => True
  | .indexedMemory _ _ => True

/-- Every record is one of the two builders'. -/
theorem recordOf_cases (i : Instr) :
    (∃ d w reg x, recordOf i = recordRm d w reg x) ∨
    (∃ reg b, recordOf i = recordImm 0#1 reg (imm8Operand b)) ∨
    (∃ reg v, recordOf i = recordImm 1#1 reg (imm16Operand v)) := by
  cases i with
  | movRm8R8 dst reg => exact .inl ⟨_, _, _, _, rfl⟩
  | movRm16R16 dst reg => exact .inl ⟨_, _, _, _, rfl⟩
  | movR8Rm8 reg src => exact .inl ⟨_, _, _, _, rfl⟩
  | movR16Rm16 reg src => exact .inl ⟨_, _, _, _, rfl⟩
  | movR8Imm8 reg imm => exact .inr (.inl ⟨_, _, rfl⟩)
  | movR16Imm16 reg imm => exact .inr (.inr ⟨_, _, rfl⟩)

/-- The operands of an F-RM record are the register and the r/m operand, in the order the direction gives (41_mov_rm_reg.md R106). -/
theorem recordRm_operands (d w : Bit) (reg : Index) (x : RmForm) :
    ((recordRm d w reg x).dst = mapReg w reg ∧ (recordRm d w reg x).src = rmOperand w x) ∨
    ((recordRm d w reg x).dst = rmOperand w x ∧ (recordRm d w reg x).src = mapReg w reg) := by
  unfold recordRm direct
  split
  · exact .inl ⟨rfl, rfl⟩
  · exact .inr ⟨rfl, rfl⟩

theorem rmOperand_hasWidth (w : Bit) (x : RmForm) : (rmOperand w x).HasWidth w := by
  cases x <;> simp [rmOperand, mapReg, mapMem, Operand.HasWidth]

theorem rmOperand_ne_immediate (w w' : Bit) (x : RmForm) (v : Word16) : rmOperand w x ≠ .immediate w' v := by
  cases x <;> simp [rmOperand, mapReg, mapMem]

/-- Both operands of a record have the record's width. -/
theorem recordOf_hasWidth (i : Instr) :
    (recordOf i).dst.HasWidth (recordOf i).w ∧ (recordOf i).src.HasWidth (recordOf i).w := by
  obtain ⟨d, w, reg, x, h⟩ | ⟨reg, b, h⟩ | ⟨reg, v, h⟩ := recordOf_cases i <;> rw [h]
  · obtain ⟨hd, hs⟩ | ⟨hd, hs⟩ := recordRm_operands d w reg x <;> rw [hd, hs]
    · exact ⟨rfl, rmOperand_hasWidth w x⟩
    · exact ⟨rmOperand_hasWidth w x, rfl⟩
  · exact ⟨rfl, rfl⟩
  · exact ⟨rfl, rfl⟩

/-- The destination of a record is a register, or it is no immediate and the source is a register. -/
theorem recordOf_operand_kinds (i : Instr) :
    (∃ w reg, (recordOf i).dst = .register w reg) ∨
    ((∀ w v, (recordOf i).dst ≠ .immediate w v) ∧ ∃ w reg, (recordOf i).src = .register w reg) := by
  obtain ⟨d, w, reg, x, h⟩ | ⟨reg, b, h⟩ | ⟨reg, v, h⟩ := recordOf_cases i <;> rw [h]
  · obtain ⟨hd, hs⟩ | ⟨hd, hs⟩ := recordRm_operands d w reg x <;> rw [hd, hs]
    · exact .inl ⟨w, reg, rfl⟩
    · exact .inr ⟨fun w' v => rmOperand_ne_immediate w w' x v, w, reg, rfl⟩
  · exact .inl ⟨_, reg, rfl⟩
  · exact .inl ⟨_, reg, rfl⟩

/-- An 8-bit immediate is one unsigned byte. -/
theorem recordOf_imm8_lt {i : Instr} {v : Word16} (hv : (recordOf i).src = .immediate 0#1 v) : v.toNat < 256 := by
  obtain ⟨d, w, reg, x, h⟩ | ⟨reg, b, h⟩ | ⟨reg, v', h⟩ := recordOf_cases i <;> rw [h] at hv
  · obtain ⟨-, hs⟩ | ⟨-, hs⟩ := recordRm_operands d w reg x <;> rw [hs] at hv
    · exact absurd hv (rmOperand_ne_immediate w 0#1 x v)
    · simp [mapReg] at hv
  · obtain ⟨-, rfl⟩ := Operand.immediate.inj hv
    simpa using b.isLt
  · simp [recordImm, imm16Operand] at hv

/-- An emitted record is an instruction's. -/
theorem step_emits_recordOf {s t : State} {r : DecodedInstruction} (h : step s = .next t) (ho : t.out = .instr r) :
    ∃ i, r = recordOf i := by
  obtain ⟨b, -, hb⟩ | ⟨-, he⟩ := step_cases h
  · obtain ⟨next, -, rfl⟩ | ⟨i, -, -, rfl⟩ | ⟨-, -, rfl⟩ := stepByte_next hb
    · simp at ho
    · exact ⟨i, (OutEvent.instr.inj ho).symm⟩
    · simp at ho
  · obtain ⟨-, rfl⟩ | ⟨-, rfl⟩ := stepEos_next he <;> simp at ho

/-- Settles O18: an emitted record is an instruction's, and those have the operands and the length the formats give. -/
theorem emittedRecordsAreSound : Obligations.EmittedRecordsAreSound := by
  intro s t r hstep hout
  obtain ⟨i, rfl⟩ := step_emits_recordOf hstep hout
  obtain ⟨hwd, hws⟩ := recordOf_hasWidth i
  have hkinds := recordOf_operand_kinds i
  obtain ⟨-, hlo, hhi, hlen⟩ := Laws.EncodedLength.all i
  refine ⟨?_, ?_, ?_, ?_, ?_, ?_, by omega⟩
  · obtain ⟨w, reg, hd⟩ | ⟨hd, -⟩ := hkinds
    · simp [hd]
    · exact hd
  · exact hkinds.imp_right And.right
  · obtain ⟨w, reg, hd⟩ | ⟨-, w, reg, hs⟩ := hkinds
    · simp [hd]
    · simp [hs]
  · intro w reg hd
    simpa [hd, Operand.HasWidth] using hwd
  · intro w reg hs
    simpa [hs, Operand.HasWidth] using hws
  · intro w v hs
    exact ⟨by simpa [hs, Operand.HasWidth] using hws, fun hw => recordOf_imm8_lt (hw ▸ hs)⟩

/-! ## Two blocks with the same bytes to come

The relation behind O41: the blocks agree on what is in flight and on what is to come, and on nothing else. -/

/-- Two blocks that no step can tell apart: one sequencer state, the same bytes in flight and the same bytes to come. -/
structure SameView (s t : State) : Prop where
  wf_left : Memory.wf s.source = true
  wf_right : Memory.wf t.source = true
  coherent_left : s.coherent = true
  coherent_right : t.coherent = true
  st_eq : s.st = t.st
  inflight_eq : s.inflight = t.inflight
  remaining_eq : s.remaining = t.remaining

theorem SameView.event_eq {s t : State} (v : SameView s t) : s.event = t.event := by
  rw [event_of_wf v.wf_left, event_of_wf v.wf_right, v.remaining_eq]

/-- The leading byte of an instruction in flight is the same in both. -/
theorem SameView.opc_eq {s t : State} (v : SameView s t) (h : s.st.inFlight = true) : s.opc = t.opc := by
  have hs := decode_inflight v.coherent_left h
  rw [v.inflight_eq, decode_inflight v.coherent_right (v.st_eq ▸ h)] at hs
  exact (DecodeResult.error.inj hs).2.symm

/-- Steps that keep the relation: what is left to show of the two next states is their `st` and bytes in flight. -/
theorem SameView.of_steps {s t s' t' : State} (v : SameView s t) (hs : step s = .next s') (ht : step t = .next t')
    (hst : s'.st = t'.st) (hin : s'.inflight = t'.inflight) : SameView s' t' where
  wf_left := step_source hs ▸ v.wf_left
  wf_right := step_source ht ▸ v.wf_right
  coherent_left := step_coherent v.coherent_left hs
  coherent_right := step_coherent v.coherent_right ht
  st_eq := hst
  inflight_eq := hin
  remaining_eq := by
    have hev := v.event_eq
    obtain ⟨b, hb, hsb⟩ | ⟨he, hse⟩ := step_cases hs
    · obtain ⟨-, -, -, hps, hss⟩ := stepByte_frame hsb
      obtain ⟨-, -, -, hpt, hst⟩ := stepByte_frame ((step_eq_of_byte (hev.symm.trans hb)).symm.trans ht)
      rw [remaining_advance hps hss, remaining_advance hpt hst, v.remaining_eq]
    · obtain ⟨-, -, -, hps, hss⟩ := stepEos_frame hse
      obtain ⟨-, -, -, hpt, hst⟩ := stepEos_frame ((step_eq_of_eos (hev.symm.trans he)).symm.trans ht)
      simpa [State.remaining, hps, hss, hpt, hst] using v.remaining_eq

/-- A step on a byte does the same in both blocks. -/
theorem SameView.stepByte_agrees {b : Byte} {s t s' : State} (v : SameView s t) (h : stepByte b s = .next s') :
    ∃ t', stepByte b t = .next t' ∧ s'.out = t'.out ∧ s'.st = t'.st ∧ s'.inflight = t'.inflight := by
  obtain ⟨next, ha, rfl⟩ | ⟨i, ha, hd, rfl⟩ | ⟨hop, hc, rfl⟩ := stepByte_next h
  · have hat := awaitAfter_congr v.st_eq b ▸ ha
    refine ⟨_, stepByte_of_await hat, rfl, rfl, ?_⟩
    rw [(await_inflight v.coherent_left ha).1, (await_inflight v.coherent_right hat).1, v.inflight_eq]
  · have hat := awaitAfter_congr v.st_eq b ▸ ha
    have hin := v.st_eq ▸ inFlight_of_decode hd
    exact ⟨_, stepByte_of_complete hin hat (v.inflight_eq ▸ hd), rfl, rfl, rfl⟩
  · exact ⟨_, stepByte_of_unrecognized (v.st_eq ▸ hop) hc, rfl, rfl, rfl⟩

/-- A step on `EOS` does the same in both blocks. -/
theorem SameView.stepEos_agrees {s t s' : State} (v : SameView s t) (h : stepEos s = .next s') :
    ∃ t', stepEos t = .next t' ∧ s'.out = t'.out ∧ s'.st = t'.st ∧ s'.inflight = t'.inflight := by
  obtain ⟨hop, rfl⟩ | ⟨hin, rfl⟩ := stepEos_next h
  · exact ⟨_, stepEos_of_op (v.st_eq ▸ hop), rfl, rfl, rfl⟩
  · exact ⟨_, stepEos_of_inFlight (v.st_eq ▸ hin), by simp [v.opc_eq hin], rfl, rfl⟩

/-- One step from two blocks with one view gives one output and two blocks with one view. -/
theorem SameView.step_agrees {s t s' : State} (v : SameView s t) (h : step s = .next s') :
    ∃ t', step t = .next t' ∧ s'.out = t'.out ∧ SameView s' t' := by
  have hev := v.event_eq
  obtain ⟨b, hb, hsb⟩ | ⟨he, hse⟩ := step_cases h
  · obtain ⟨t', ht, hout, hst, hin⟩ := v.stepByte_agrees hsb
    have hstep := (step_eq_of_byte (hev.symm.trans hb)).trans ht
    exact ⟨t', hstep, hout, v.of_steps h hstep hst hin⟩
  · obtain ⟨t', ht, hout, hst, hin⟩ := v.stepEos_agrees hse
    have hstep := (step_eq_of_eos (hev.symm.trans he)).trans ht
    exact ⟨t', hstep, hout, v.of_steps h hstep hst hin⟩

theorem SameView.runSteps_outputs (k : Nat) {s t : State} (v : SameView s t) : (runSteps k s).1 = (runSteps k t).1 := by
  induction k generalizing s t with
  | zero => rfl
  | succ k ih =>
    cases hf : s.st.isFinal with
    | true => rw [runSteps_final _ hf, runSteps_final _ (v.st_eq ▸ hf)]
    | false =>
      obtain ⟨s', hs⟩ := stepOn_progress s.event v.coherent_left hf
      obtain ⟨t', ht, hout, v'⟩ := v.step_agrees hs
      rw [runSteps_next k hs, runSteps_next k ht, hout, ih v']

/-- Settles O41: at a boundary nothing is in flight, so the same bytes to come make the same view. -/
theorem outputsDependOnlyOnBytesToCome : Obligations.OutputsDependOnlyOnBytesToCome := by
  intro k s t hs ht hws hwt hrem
  refine SameView.runSteps_outputs k ⟨hws, hwt, coherent_of_op hs, coherent_of_op ht, hs.trans ht.symm, ?_, hrem⟩
  simp [State.inflight, hs, ht]

/-! ## The output signals -/

theorem append_toNat {m n : Nat} (x : BitVec m) (y : BitVec n) : (x ++ y).toNat = x.toNat * 2 ^ n + y.toNat := by
  rw [BitVec.toNat_append, ← Nat.shiftLeft_add_eq_or_of_lt y.isLt, Nat.shiftLeft_eq]

/-- The four fields of an operand bus as one number (10_state.md R19). -/
theorem packFields_toNat (kind : BitVec 2) (idx : Index) (dsz : BitVec 2) (val : Word16) :
    (packFields kind idx dsz val).toNat = kind.toNat * 2 ^ 21 + idx.toNat * 2 ^ 18 + dsz.toNat * 2 ^ 16 + val.toNat := by
  simp only [packFields, append_toNat]
  omega

theorem packFields_inj {kind kind' : BitVec 2} {idx idx' : Index} {dsz dsz' : BitVec 2} {val val' : Word16} :
    packFields kind idx dsz val = packFields kind' idx' dsz' val' ↔
      kind = kind' ∧ idx = idx' ∧ dsz = dsz' ∧ val = val' := by
  simp only [← BitVec.toNat_inj, packFields_toNat]
  have := idx.isLt
  have := idx'.isLt
  have := dsz.isLt
  have := dsz'.isLt
  have := val.isLt
  have := val'.isLt
  omega

theorem setWidth_byte_toNat (b : Byte) : (b.setWidth 16).toNat = b.toNat :=
  zext16_toNat b

theorem setWidth_byte_inj {a b : Byte} : a.setWidth 16 = b.setWidth 16 ↔ a = b := by
  rw [← BitVec.toNat_inj, setWidth_byte_toNat, setWidth_byte_toNat, BitVec.toNat_inj]

/-- With the width given, the bus determines the operand: the kind and displacement-size fields tell the forms apart, and the other
two fields hold what the form holds. -/
theorem packOperand_injective {w : Bit} {a b : Operand} (ha : a.HasWidth w) (hb : b.HasWidth w)
    (h : packOperand a = packOperand b) : a = b := by
  unfold packOperand at h
  split at h <;> split at h <;> simp_all [packFields_inj, setWidth_byte_inj, Operand.HasWidth]

/-- The mnemonic is always `mov` (R33), so the other four fields determine a record. -/
theorem record_eq_of_fields {r r' : DecodedInstruction} (hw : r.w = r'.w) (hdst : r.dst = r'.dst) (hsrc : r.src = r'.src)
    (hlen : r.len = r'.len) : r = r' := by
  cases r
  cases r'
  simp_all

/-- Settles O44: `out_w` gives the width the buses leave out, and the three bits of `out_len` hold every length. -/
theorem outputSignalsCarryTheRecord : Obligations.OutputSignalsCarryTheRecord := by
  intro i j h
  obtain ⟨hdi, hsi⟩ := recordOf_hasWidth i
  obtain ⟨hdj, hsj⟩ := recordOf_hasWidth j
  obtain ⟨-, -, hi, hli⟩ := Laws.EncodedLength.all i
  obtain ⟨-, -, hj, hlj⟩ := Laws.EncodedLength.all j
  have hw : (recordOf i).w = (recordOf j).w := congrArg OutSignals.w h
  have hlen := congrArg (fun o => o.len.toNat) h
  have hdst := packOperand_injective hdi (hw ▸ hdj) (congrArg OutSignals.dst h)
  have hsrc := packOperand_injective hsi (hw ▸ hsj) (congrArg OutSignals.src h)
  simp only [outSignals, BitVec.toNat_ofNat] at hlen
  exact record_eq_of_fields hw hdst hsrc (by omega)

theorem outSignals_valid_iff (e : OutEvent) : (outSignals e).valid = 0#1 ↔ e = .none := by
  cases e <;> simp [outSignals, OutSignals.quiet]

theorem outSignals_tag_ne (e : OutEvent) : (outSignals e).tag ≠ 0b11#2 := by
  cases e <;> simp [outSignals, OutSignals.quiet]

/-- Settles O45: the columns of the table of R19 by the event, the operand buses by the number their fields make. -/
theorem outputSignalFields : Obligations.OutputSignalFields := by
  refine ⟨fun e => ⟨outSignals_valid_iff e, outSignals_tag_ne e⟩, rfl, fun r => ⟨rfl, rfl, ?_, rfl, rfl, rfl, rfl⟩,
    fun opc => ⟨rfl, rfl⟩, rfl, ?_, ?_, ?_, ?_, ?_, ?_⟩
  · simp [outSignals]
  · intro w i
    simp [packOperand, packFields_toNat]
  · intro a
    simp [packOperand, packFields_toNat]
  · intro k
    simp [packOperand, packFields_toNat]
  · intro k b
    rw [packOperand, packFields_toNat, setWidth_byte_toNat]
    rfl
  · intro k v
    simp [packOperand, packFields_toNat]
  · intro w v
    simp [packOperand, packFields_toNat]

/-! ## The sequencer codes -/

/-- The sequencer states in the order of their codes (10_state.md R21). -/
def SeqState.inCodeOrder : List SeqState :=
  [.op, .modrm, .d8, .d16L, .d16H, .a16L, .a16H, .i8, .i16L, .i16H, .done, .err]

/-- A code is the place of its state in the list. -/
theorem inCodeOrder_code (a : SeqState) : SeqState.inCodeOrder[a.code.toNat]? = some a := by
  cases a <;> rfl

theorem code_injective {a b : SeqState} (h : a.code = b.code) : a = b := by
  have ha := inCodeOrder_code a
  rw [h, inCodeOrder_code b] at ha
  exact (Option.some.inj ha).symm

theorem code_lt (a : SeqState) : a.code.toNat < 12 :=
  (List.getElem?_eq_some_iff.mp (inCodeOrder_code a)).1

theorem isFinal_iff_code (a : SeqState) : a.isFinal = true ↔ a.code = 10#4 ∨ a.code = 11#4 := by
  cases a <;> decide

/-- Settles O46: the table by evaluation, the rest from the states listed by code. -/
theorem sequencerCodes : Obligations.SequencerCodes := by
  refine ⟨rfl, rfl, rfl, rfl, rfl, rfl, rfl, rfl, rfl, rfl, rfl, rfl, fun _ _ => code_injective, code_lt, fun s => ?_⟩
  rw [State.inReady, Bool.not_eq_false', isFinal_iff_code]

/-! ## The ROMs -/

/-- Settles O47, by reading each ROM at its eight indices. -/
theorem romContents : Obligations.RomContents :=
  ⟨by decide, by decide, by decide⟩

end Sys2Proof.Machine

/-! ## Proofs of the memory family: byte order

Where a 2-byte field stands in an instruction (20_memory.md R43). -/

namespace Sys2Proof

theorem decode_rm_of_form {opc m : Byte} {ext rest : List Byte} {x : RmForm} (hc : cls opc = .rm)
    (hx : decodeRmForm m ext = some (x, rest)) : decode (opc :: m :: ext) = .ok (rmInstr opc (fieldReg m) x) rest := by
  simp [decode_rm hc, decodeRm, hx]

theorem decodeRmForm_direct {m : Byte} (hmod : fieldMod m = 0b00#2) (hrm : fieldRm m = 0b110#3) (lo hi : Byte)
    (rest : List Byte) : decodeRmForm m (lo :: hi :: rest) = some (.direct (join hi lo), rest) := by
  simp [decodeRmForm, hmod, hrm]

theorem decodeRmForm_baseDisp16 {m : Byte} (hmod : fieldMod m = 0b10#2) (lo hi : Byte) (rest : List Byte) :
    decodeRmForm m (lo :: hi :: rest) = some (.baseDisp16 (fieldRm m) (join hi lo), rest) := by
  simp [decodeRmForm, hmod]

theorem decode_imm16 {opc : Byte} (hc : cls opc = .imm) (hw : fieldWi opc = 1#1) (lo hi : Byte) (rest : List Byte) :
    decode (opc :: lo :: hi :: rest) = .ok (.movR16Imm16 (fieldRegi opc) (join hi lo)) rest := by
  simp [decode_imm hc, decodeImm, hw]

/-- Settles O6: in all three places the field is `join second first`. -/
theorem twoByteFieldsAreLittleEndian : Obligations.TwoByteFieldsAreLittleEndian := by
  intro opc m first second rest
  exact ⟨join second first, join_toNat second first, lowByte_join second first, highByte_join second first,
    fun hc hmod hrm => decode_rm_of_form hc (decodeRmForm_direct hmod hrm first second rest),
    fun hc hmod => decode_rm_of_form hc (decodeRmForm_baseDisp16 hmod first second rest),
    fun hc hw => decode_imm16 hc hw first second rest⟩

end Sys2Proof

/-! ## Proofs of the memory family: no output looks ahead

A step reads the ByteSource at the stream position only, and the position moves by at most one (20_memory.md R42, R48). So a run of
`k` steps from `s` does the same over any other ByteSource that agrees below `s.pos + k`. -/

namespace Sys2Proof.Machine

/-- The block as it stands, with the bytes of another stream presented to it. -/
def State.withSource (m : Memory) (s : State) : State := { s with source := m }

section
variable (m : Memory) (s : State)

@[simp] theorem withSource_st : (s.withSource m).st = s.st := rfl
@[simp] theorem withSource_pos : (s.withSource m).pos = s.pos := rfl
@[simp] theorem withSource_out : (s.withSource m).out = s.out := rfl
@[simp] theorem withSource_source : (s.withSource m).source = m := rfl

theorem withSource_consume (b : Byte) : (s.withSource m).consume b = (s.consume b).withSource m := by
  unfold State.consume
  rw [withSource_st]
  split <;> rfl

end

/-- The step on a given event does not read the ByteSource. -/
theorem stepOn_withSource (m : Memory) {ev : Event} {s t : State} (h : stepOn ev s = .next t) :
    stepOn ev (s.withSource m) = .next (t.withSource m) := by
  cases ev with
  | byte b =>
    have hawait : awaitAfter b (s.withSource m) = awaitAfter b s := awaitAfter_congr rfl b
    change stepByte b (s.withSource m) = _
    obtain ⟨next, ha, rfl⟩ | ⟨i, ha, hd, rfl⟩ | ⟨hop, hc, rfl⟩ := stepByte_next h
    · rw [stepByte_of_await (hawait.trans ha), withSource_consume]; rfl
    · rw [stepByte_of_complete (s := s.withSource m) (inFlight_of_decode hd) (hawait.trans ha) hd, withSource_consume]; rfl
    · rw [stepByte_of_unrecognized (s := s.withSource m) hop hc, withSource_consume]; rfl
  | eos =>
    obtain ⟨hop, rfl⟩ | ⟨hin, rfl⟩ := stepEos_next h
    · exact stepEos_of_op (s := s.withSource m) hop
    · exact stepEos_of_inFlight (s := s.withSource m) hin

/-- A step reads the ByteSource at the stream position only. -/
theorem step_withSource {m : Memory} {s t : State} (hread : Memory.read s.source s.pos = Memory.read m s.pos)
    (h : step s = .next t) : step (s.withSource m) = .next (t.withSource m) := by
  have hev : (s.withSource m).event = s.event := by simp [State.event, hread]
  rw [step, hev]
  exact stepOn_withSource m h

theorem step_pos_le {s t : State} (h : step s = .next t) : t.pos ≤ s.pos + 1 := by
  obtain ⟨b, -, hb⟩ | ⟨-, he⟩ := step_cases h
  · obtain ⟨-, -, -, hpos, -⟩ := stepByte_frame hb
    exact hpos.le
  · obtain ⟨-, -, -, hpos, -⟩ := stepEos_frame he
    exact hpos.le.trans (Nat.le_succ _)

/-- The outputs of `k` steps depend on the bytes below offset `s.pos + k` only. -/
theorem runSteps_withSource (k : Nat) {m : Memory} {s : State} (hc : s.coherent = true)
    (hread : ∀ a < s.pos + k, Memory.read s.source a = Memory.read m a) :
    (runSteps k s).1 = (runSteps k (s.withSource m)).1 := by
  induction k generalizing s with
  | zero => rfl
  | succ k ih =>
    cases hf : s.st.isFinal with
    | true => rw [runSteps_final _ hf, runSteps_final _ (s := s.withSource m) hf]
    | false =>
      obtain ⟨t, (hs : step s = .next t)⟩ := stepOn_progress s.event hc hf
      have hm := step_withSource (hread s.pos (by omega)) hs
      have hpos := step_pos_le hs
      have hrest : ∀ a < t.pos + k, Memory.read t.source a = Memory.read m a := fun a ha => by
        rw [step_source hs]
        exact hread a (by omega)
      rw [runSteps_next k hs, runSteps_next k hm, withSource_out, ih (step_coherent hc hs) hrest]

theorem read_ofBytes_of_take_eq {k : Nat} {B C : List Byte} (h : B.take k = C.take k) {a : Nat} (ha : a < k) :
    Memory.read (Memory.ofBytes 0 B) a = Memory.read (Memory.ofBytes 0 C) a := by
  have hB : (B.take k)[a]? = B[a]? := List.getElem?_take_of_lt ha
  have hC : (C.take k)[a]? = C[a]? := List.getElem?_take_of_lt ha
  simp [read_ofBytes, ← hB, ← hC, h]

/-- Settles O42: from reset the position is 0, so `k` steps read only the `k` bytes the streams share. -/
theorem outputsFollowTheBytesConsumed : Obligations.OutputsFollowTheBytesConsumed := by
  intro k B C h
  refine runSteps_withSource k (m := Memory.ofBytes 0 C) (s := State.reset.loadSource B) (coherent_of_op rfl) fun a ha => ?_
  exact read_ofBytes_of_take_eq h (by simpa using ha)

end Sys2Proof.Machine

/-! ## Proofs of the encoding family: the classifier

Each family is its mask test and its range of bytes, and the two tests exclude each other (30_encoding.md R59, R60). -/

namespace Sys2Proof

/-- The masks overlap in bits 7..4, where the two patterns differ. -/
theorem not_imm_mask_of_rm_mask {b : Byte} (h : b &&& 0b11111100#8 = 0b10001000#8) :
    b &&& 0b11110000#8 ≠ 0b10110000#8 := by
  have hmask : b &&& 0b11110000#8 = (b &&& 0b11111100#8) &&& 0b11110000#8 := by rw [BitVec.and_assoc]; rfl
  rw [hmask, h]
  decide

theorem cls_eq_ite (b : Byte) :
    cls b = if b &&& 0b11111100#8 = 0b10001000#8 then .rm
      else if b &&& 0b11110000#8 = 0b10110000#8 then .imm else .none :=
  rfl

theorem firstMatch_reverse_eq_ite (b : Byte) :
    firstMatch opcodeTable.reverse b = if b &&& 0b11110000#8 = 0b10110000#8 then .imm
      else if b &&& 0b11111100#8 = 0b10001000#8 then .rm else .none :=
  rfl

theorem cls_eq_rm_iff_mask (b : Byte) : cls b = .rm ↔ b &&& 0b11111100#8 = 0b10001000#8 := by
  rw [cls_eq_ite]
  split_ifs <;> simp_all

theorem cls_eq_imm_iff_mask (b : Byte) : cls b = .imm ↔ b &&& 0b11110000#8 = 0b10110000#8 := by
  rw [cls_eq_ite]
  split_ifs with hrm himm
  · simp [not_imm_mask_of_rm_mask hrm]
  · simp [himm]
  · simp [himm]

theorem cls_eq_none_iff_mask (b : Byte) :
    cls b = .none ↔ b &&& 0b11111100#8 ≠ 0b10001000#8 ∧ b &&& 0b11110000#8 ≠ 0b10110000#8 := by
  rw [cls_eq_ite]
  split_ifs <;> simp_all

theorem cls_eq_rm_iff_range (b : Byte) : cls b = .rm ↔ 0x88 ≤ b.toNat ∧ b.toNat ≤ 0x8B := by
  revert b; decide

theorem cls_eq_imm_iff_range (b : Byte) : cls b = .imm ↔ 0xB0 ≤ b.toNat ∧ b.toNat ≤ 0xBF := by
  revert b; decide

/-- The order of the two tests does not matter (R60). -/
theorem firstMatch_reverse (b : Byte) : firstMatch opcodeTable.reverse b = cls b := by
  rw [firstMatch_reverse_eq_ite, cls_eq_ite]
  by_cases hrm : b &&& 0b11111100#8 = 0b10001000#8
  · rw [if_neg (not_imm_mask_of_rm_mask hrm), if_pos hrm, if_pos hrm]
  · rw [if_neg hrm, if_neg hrm]

/-- Settles O4, clause by clause from the classifier's masks, ranges and decoders. -/
theorem classifierIsTheTwoMasks : Obligations.ClassifierIsTheTwoMasks := fun b =>
  ⟨cls_eq_rm_iff_mask b, cls_eq_imm_iff_mask b, cls_eq_none_iff_mask b, cls_eq_rm_iff_range b, cls_eq_imm_iff_range b,
    firstMatch_reverse b, fun rest => ⟨(decode_rm · rest), (decode_imm · rest), (decode_none · rest)⟩⟩

end Sys2Proof

/-! ## Proofs of the encoding family: decoding what was encoded

The forward direction of the round trip (30_encoding.md R57, R58). -/

namespace Sys2Proof

theorem decode_imm8 {opc : Byte} (hc : cls opc = .imm) (hw : fieldWi opc = 0#1) (imm : Byte) (rest : List Byte) :
    decode (opc :: imm :: rest) = .ok (.movR8Imm8 (fieldRegi opc) imm) rest := by
  simp [decode_imm hc, decodeImm, hw]

/-- An opcode byte of the family, a register and a well-formed form decode to the instruction they make up. -/
theorem decode_encodeModrm {opc : Byte} (hc : cls opc = .rm) (reg : Index) {x : RmForm} (hx : x.wellFormed = true)
    (rest : List Byte) :
    decode (opc :: encodeModrm reg x :: (x.encodeExtra ++ rest)) = .ok (rmInstr opc reg x) rest := by
  rw [decode_rm_of_form hc (decodeRmForm_encode x reg rest hx), fieldReg_encodeModrm]

/-- Settles O1: an F-RM encoding by its r/m form, an F-IMM encoding by the fields of its opcode byte. -/
theorem decodeOfEncodeIsTheInstruction : Obligations.DecodeOfEncodeIsTheInstruction := by
  intro i rest hwf
  cases i with
  | movRm8R8 dst reg => exact decode_encodeModrm (by decide) reg hwf rest
  | movRm16R16 dst reg => exact decode_encodeModrm (by decide) reg hwf rest
  | movR8Rm8 reg src => exact decode_encodeModrm (by decide) reg hwf rest
  | movR16Rm16 reg src => exact decode_encodeModrm (by decide) reg hwf rest
  | movR8Imm8 reg imm =>
    have h := decode_imm8 (cls_imm8_opcode reg) (fieldWi_imm8_opcode reg) imm rest
    rwa [fieldRegi_imm8_opcode] at h
  | movR16Imm16 reg imm =>
    have h := decode_imm16 (cls_imm16_opcode reg) (fieldWi_imm16_opcode reg) (lowByte imm) (highByte imm) rest
    rwa [fieldRegi_imm16_opcode, join_high_low] at h

theorem decode_encode {i : Instr} (h : i.wellFormed = true) : decode (encode i) = .ok i [] := by
  simpa using decodeOfEncodeIsTheInstruction i [] h

/-- Settles O3, by decoding the six words. -/
theorem wordsWrittenFromTheFormatsDecode : Obligations.WordsWrittenFromTheFormatsDecode :=
  ⟨by decide, by decide, by decide, by decide, by decide, by decide⟩

end Sys2Proof

/-! ## Proofs of the encoding family: what a decoded instruction is

The decoder inverted: the bytes it took and the instruction it made of them. -/

namespace Sys2Proof

/-- The r/m instruction of an opcode byte has that byte, its register and its form as its encoding. -/
theorem encode_rmInstr {opc : Byte} (hc : cls opc = .rm) (reg : Index) (x : RmForm) :
    encode (rmInstr opc reg x) = opc :: encodeModrm reg x :: x.encodeExtra := by
  have hopc := rm_opcode_of_fields opc hc
  unfold rmInstr
  split_ifs at hopc ⊢ <;> rw [hopc] <;> rfl

@[simp] theorem rmInstr_wellFormed (opc : Byte) (reg : Index) (x : RmForm) :
    (rmInstr opc reg x).wellFormed = x.wellFormed := by
  unfold rmInstr
  split_ifs <;> rfl

@[simp] theorem rmInstr_length (opc : Byte) (reg : Index) (x : RmForm) : (rmInstr opc reg x).length = 2 + x.extraBytes := by
  unfold rmInstr
  split_ifs <;> rfl

theorem imm8_opcode_eq {opc : Byte} (hc : cls opc = .imm) (hw : fieldWi opc = 0#1) : 0b10110#5 ++ fieldRegi opc = opc := by
  simpa [hw] using (imm_opcode_of_fields opc hc).symm

theorem imm16_opcode_eq {opc : Byte} (hc : cls opc = .imm) (hw : fieldWi opc = 1#1) : 0b10111#5 ++ fieldRegi opc = opc := by
  simpa [hw] using (imm_opcode_of_fields opc hc).symm

/-- An instruction the F-RM decoder answers: a mod-reg-rm byte and the extra bytes of a well-formed form. -/
theorem decodeRm_ok {opc : Byte} {bs rest : List Byte} {i : Instr} (h : decodeRm opc bs = .ok i rest) :
    ∃ m x, bs = m :: (x.encodeExtra ++ rest) ∧ i = rmInstr opc (fieldReg m) x ∧ x.wellFormed = true ∧
      encodeModrm (fieldReg m) x = m ∧ x.extraBytes = extra m := by
  match bs with
  | [] => simp [decodeRm] at h
  | m :: ext =>
    obtain ⟨-, hd⟩ | ⟨x, r, hd, hext, hlen, hwf, hmod, hrm⟩ := decodeRmForm_cases m ext
    · simp [decodeRm, hd] at h
    · simp only [decodeRm, hd, DecodeResult.ok.injEq] at h
      obtain ⟨rfl, rfl⟩ := h
      exact ⟨m, x, by rw [hext], rfl, hwf, encodeModrm_of_fields hmod hrm, by rw [← encodeExtra_length, hlen]⟩

/-- An instruction the F-IMM decoder answers: the one or two bytes of the immediate that the width bit calls for. -/
theorem decodeImm_ok {opc : Byte} {bs rest : List Byte} {i : Instr} (h : decodeImm opc bs = .ok i rest) :
    (fieldWi opc = 0#1 ∧ ∃ imm, bs = imm :: rest ∧ i = .movR8Imm8 (fieldRegi opc) imm) ∨
    (fieldWi opc = 1#1 ∧ ∃ lo hi, bs = lo :: hi :: rest ∧ i = .movR16Imm16 (fieldRegi opc) (join hi lo)) := by
  obtain hw | hw := bit_cases (fieldWi opc)
  · match bs with
    | [] => simp [decodeImm, hw] at h
    | imm :: r =>
      obtain ⟨rfl, rfl⟩ : _ = i ∧ r = rest := by simpa [decodeImm, hw] using h
      exact .inl ⟨hw, imm, rfl, rfl⟩
  · match bs with
    | [] => simp [decodeImm, hw] at h
    | [_] => simp [decodeImm, hw] at h
    | lo :: hi :: r =>
      obtain ⟨rfl, rfl⟩ : _ = i ∧ r = rest := by simpa [decodeImm, hw] using h
      exact .inr ⟨hw, lo, hi, rfl, rfl⟩

/-- Only the two families' decoders answer an instruction. -/
theorem decode_ok_cases {b0 : Byte} {bs rest : List Byte} {i : Instr} (h : decode (b0 :: bs) = .ok i rest) :
    (cls b0 = .rm ∧ decodeRm b0 bs = .ok i rest) ∨ (cls b0 = .imm ∧ decodeImm b0 bs = .ok i rest) := by
  obtain hc | hc | hc := cls_cases b0
  · exact .inl ⟨hc, decode_rm hc bs ▸ h⟩
  · exact .inr ⟨hc, decode_imm hc bs ▸ h⟩
  · simp [decode_none hc] at h

/-- Settles O2, by the three shapes of a decoded instruction: r/m form, one immediate byte, two immediate bytes. -/
theorem encodeOfDecodeIsTheBytes : Obligations.EncodeOfDecodeIsTheBytes := by
  intro bs rest i h
  match bs with
  | [] => simp [decode] at h
  | b0 :: bs =>
    obtain ⟨hc, hrm⟩ | ⟨hc, himm⟩ := decode_ok_cases h
    · obtain ⟨m, x, rfl, rfl, hwf, hm, -⟩ := decodeRm_ok hrm
      exact ⟨by rw [rmInstr_wellFormed, hwf], by rw [encode_rmInstr hc, hm]; rfl⟩
    · obtain ⟨hw, imm, rfl, rfl⟩ | ⟨hw, lo, hi, rfl, rfl⟩ := decodeImm_ok himm
      · exact ⟨rfl, by simp [encode, imm8_opcode_eq hc hw]⟩
      · exact ⟨rfl, by simp [encode, imm16_opcode_eq hc hw]⟩

theorem decode_length {bs rest : List Byte} {i : Instr} (h : decode bs = .ok i rest) :
    bs.length = i.length + rest.length := by
  obtain ⟨-, rfl⟩ := encodeOfDecodeIsTheBytes bs rest i h
  rw [List.length_append, (Laws.EncodedLength.all i).1]

/-- A decoded F-RM instruction has the length `len(opc, m)` of R64. -/
theorem decodeRm_length {opc : Byte} {bs rest : List Byte} {i : Instr} (h : decodeRm opc bs = .ok i rest) :
    ∃ m ext, bs = m :: ext ∧ i.length = lengthRm m := by
  obtain ⟨m, x, rfl, rfl, -, -, hx⟩ := decodeRm_ok h
  exact ⟨m, _, rfl, by rw [rmInstr_length, hx, lengthRm]⟩

/-- A decoded F-IMM instruction has the length `len(opc)` of R64. -/
theorem decodeImm_length {opc : Byte} {bs rest : List Byte} {i : Instr} (h : decodeImm opc bs = .ok i rest) :
    i.length = lengthImm opc := by
  obtain ⟨hw, imm, -, rfl⟩ | ⟨hw, lo, hi, -, rfl⟩ := decodeImm_ok h <;> rw [lengthImm, hw] <;> rfl

/-- Settles O5: the decoded length is the length rule's, whose table is read row by row. -/
theorem lengthFollowsFirstTwoBytes : Obligations.LengthFollowsFirstTwoBytes := by
  intro b0 bs rest i h
  refine ⟨decode_length h, fun hc => ?_, fun hc => ?_⟩
  · obtain ⟨m, ext, hbs, hlen⟩ := decodeRm_length (decode_rm hc bs ▸ h)
    refine ⟨m, ext, hbs, ?_⟩
    simp +contextual [hlen, lengthRm, extra]
  · have hlen := decodeImm_length (decode_imm hc bs ▸ h)
    simp +contextual [hlen, lengthImm]

end Sys2Proof

/-! ## Proofs of the encoding family: register-to-register moves

The direction bit chooses which register the reg field names, so swapping both gives the same record (30_encoding.md R75). -/

namespace Sys2Proof.Machine

theorem recordRm_swap (w : Bit) (a b : Index) : recordRm 0#1 w b (.reg a) = recordRm 1#1 w a (.reg b) :=
  rfl

theorem recordOf_regMove8 (a b : Index) : recordOf (.movRm8R8 (.reg a) b) = recordOf (.movR8Rm8 a (.reg b)) :=
  recordRm_swap 0#1 a b

theorem recordOf_regMove16 (a b : Index) : recordOf (.movRm16R16 (.reg a) b) = recordOf (.movR16Rm16 a (.reg b)) :=
  recordRm_swap 1#1 a b

theorem exec_congr {i j : Instr} (h : recordOf i = recordOf j) (s : State) : exec i s = exec j s := by
  rw [exec_eq, exec_eq, h]

/-- Settles O7: the two opcode bytes differ in d, both encodings decode, and the records are equal. -/
theorem registerMovesHaveTwoEncodings : Obligations.RegisterMovesHaveTwoEncodings := by
  intro a b s
  exact ⟨⟨by simp [encode], decode_encode rfl, decode_encode rfl, exec_congr (recordOf_regMove8 a b) s⟩,
    ⟨by simp [encode], decode_encode rfl, decode_encode rfl, exec_congr (recordOf_regMove16 a b) s⟩⟩

end Sys2Proof.Machine

/-! ## Proofs of the decode family: the record builders and the decoder

`build_rm` and `build_imm` on an instruction's bytes against the record of the instruction decoded from them
(41_mov_rm_reg.md R107; 42_mov_imm_reg.md R121). -/

namespace Sys2Proof.Machine

theorem recordOf_rmInstr (opc : Byte) (reg : Index) (x : RmForm) :
    recordOf (rmInstr opc reg x) = recordRm (fieldD opc) (fieldW opc) reg x := by
  obtain hd | hd := bit_cases (fieldD opc) <;> obtain hw | hw := bit_cases (fieldW opc) <;>
    simp [rmInstr, hd, hw, recordOf]

/-- `build_rm` on a form's own mod-reg-rm byte and extra bytes. -/
theorem buildRm_of_form {opc m : Byte} {x : RmForm} (hx : x.wellFormed = true) (hm : encodeModrm (fieldReg m) x = m) :
    buildRm opc m x.encodeExtra = recordOf (rmInstr opc (fieldReg m) x) := by
  have hmod : fieldMod m = x.modBits := by rw [← hm, fieldMod_encodeModrm]
  have hrm : fieldRm m = x.rmBits := by rw [← hm, fieldRm_encodeModrm]
  rw [recordOf_rmInstr, buildRm, hmod, hrm, resolve_of_form _ x hx, encodeExtra_length]
  rfl

/-- `build_rm` on the bytes of a decoded F-RM instruction. -/
theorem recordOf_decodeRm {opc : Byte} {bs rest : List Byte} {i : Instr} (h : decodeRm opc bs = .ok i rest) :
    ∃ m ext, bs = m :: (ext ++ rest) ∧ ext.length = extra m ∧ recordOf i = buildRm opc m ext := by
  obtain ⟨m, x, rfl, rfl, hwf, hm, hx⟩ := decodeRm_ok h
  exact ⟨m, x.encodeExtra, rfl, by rw [encodeExtra_length, hx], (buildRm_of_form hwf hm).symm⟩

/-- `build_imm` on the bytes of a decoded F-IMM instruction. -/
theorem recordOf_decodeImm {opc : Byte} {bs rest : List Byte} {i : Instr} (h : decodeImm opc bs = .ok i rest) :
    ∃ ext, bs = ext ++ rest ∧ 1 + ext.length = lengthImm opc ∧ recordOf i = buildImm opc ext := by
  obtain ⟨hw, imm, rfl, rfl⟩ | ⟨hw, lo, hi, rfl, rfl⟩ := decodeImm_ok h
  · exact ⟨[imm], rfl, by simp [lengthImm, hw], by simp [buildImm, hw, buildImmediate, extByte]; rfl⟩
  · exact ⟨[lo, hi], rfl, by simp [lengthImm, hw], by simp [buildImm, hw, buildImmediate, extByte]; rfl⟩

/-- With fewer bytes than the length rule calls for, the instruction is truncated. -/
theorem decodeRm_of_short {opc m : Byte} {ext : List Byte} (h : ext.length < extra m) :
    decodeRm opc (m :: ext) = .error .truncatedInstruction opc := by
  obtain ⟨-, hd⟩ | ⟨x, rest, -, hext, hlen, -⟩ := decodeRmForm_cases m ext
  · simp [decodeRm, hd]
  · simp [hext, hlen] at h

theorem decodeRm_of_long {opc m : Byte} {ext : List Byte} (h : extra m ≤ ext.length) :
    ∃ i rest, decodeRm opc (m :: ext) = .ok i rest := by
  obtain ⟨hlt, -⟩ | ⟨x, rest, hd, -⟩ := decodeRmForm_cases m ext
  · omega
  · exact ⟨rmInstr opc (fieldReg m) x, rest, by simp [decodeRm, hd]⟩

theorem decodeImm_of_short {opc : Byte} {bs : List Byte} (h : 1 + bs.length < lengthImm opc) :
    decodeImm opc bs = .error .truncatedInstruction opc := by
  obtain hw | hw := bit_cases (fieldWi opc) <;> simp only [lengthImm, hw] at h
  · match bs with
    | [] => simp [decodeImm, hw]
    | _ :: _ => simp at h
  · match bs with
    | [] => simp [decodeImm, hw]
    | [_] => simp [decodeImm, hw]
    | _ :: _ :: _ => simp at h; omega

theorem decodeImm_of_long {opc : Byte} {bs : List Byte} (h : lengthImm opc ≤ 1 + bs.length) :
    ∃ i rest, decodeImm opc bs = .ok i rest := by
  obtain hw | hw := bit_cases (fieldWi opc) <;> simp only [lengthImm, hw] at h
  · match bs with
    | [] => simp at h
    | imm :: rest => exact ⟨.movR8Imm8 (fieldRegi opc) imm, rest, by simp [decodeImm, hw]⟩
  · match bs with
    | [] => simp at h
    | [_] => simp at h
    | lo :: hi :: rest => exact ⟨.movR16Imm16 (fieldRegi opc) (join hi lo), rest, by simp [decodeImm, hw]⟩

/-! ## Proofs of the decode family: `decode_one`

At offset `p` it reads the bytes from `p` on, so it is enough to compare it with the decoder at offset 0
(40_decode_sequencer.md R88). -/

theorem decodeOne_drop (B : List Byte) (p : Nat) : decodeOne B p = decodeOne (B.drop p) 0 := by
  have hlt : ∀ b, B[p]? = some b → ∀ n, B.length < p + n ↔ B.length - p < 0 + n := fun b hb n => by
    have := (List.getElem?_eq_some_iff.mp hb).1
    omega
  simp only [decodeOne, List.getElem?_drop, Nat.add_zero, Nat.zero_add, List.length_drop, slice, List.drop_drop]
  cases hb : B[p]? with
  | none => rfl
  | some b0 => simp only [hlt b0 hb, Nat.zero_add, Nat.add_sub_add_left]

theorem decodeOne_of_rm {b0 m : Byte} (hc : cls b0 = .rm) (ext : List Byte) :
    decodeOne (b0 :: m :: ext) 0 =
      if ext.length < extra m then .err .truncatedInstruction b0 else .ok (buildRm b0 m (ext.take (extra m))) := by
  have hlen : (b0 :: m :: ext).length < 0 + lengthRm m ↔ ext.length < extra m := by
    simp only [List.length_cons, lengthRm]
    omega
  simp only [decodeOne, List.getElem?_cons_zero, List.getElem?_cons_succ, hc, hlen, slice]
  simp [lengthRm]

theorem decodeOne_of_imm {b0 : Byte} (hc : cls b0 = .imm) (bs : List Byte) :
    decodeOne (b0 :: bs) 0 =
      if 1 + bs.length < lengthImm b0 then .err .truncatedInstruction b0
      else .ok (buildImm b0 (bs.take (lengthImm b0 - 1))) := by
  simp [decodeOne, hc, slice, Nat.add_comm 1]

/-- Settles O35: at offset 0, each family's length rule decides for both whether the bytes are there, and the record is then the
builder's. -/
theorem decodeOneIsTheDecoderAtAnOffset : Obligations.DecodeOneIsTheDecoderAtAnOffset := by
  intro B p
  rw [decodeOne_drop]
  match B.drop p with
  | [] => rfl
  | b0 :: bs =>
    obtain hc | hc | hc := cls_cases b0
    · rw [decode_rm hc]
      match bs with
      | [] => simp [decodeOne, decodeRm, hc]
      | m :: ext =>
        rw [decodeOne_of_rm hc]
        split_ifs with hlt
        · rw [decodeRm_of_short hlt]
        · obtain ⟨i, rest, hd⟩ := decodeRm_of_long (opc := b0) (Nat.le_of_not_lt hlt)
          obtain ⟨_, ext', heq, hlen, hrec⟩ := recordOf_decodeRm hd
          obtain ⟨rfl, rfl⟩ := List.cons.inj heq
          rw [← hlen, List.take_left, ← hrec, hd]
    · rw [decode_imm hc, decodeOne_of_imm hc]
      split_ifs with hlt
      · rw [decodeImm_of_short hlt]
      · obtain ⟨i, rest, hd⟩ := decodeImm_of_long (Nat.le_of_not_lt hlt)
        obtain ⟨ext, rfl, hlen, hrec⟩ := recordOf_decodeImm hd
        rw [← hlen, Nat.add_sub_cancel_left, List.take_left, ← hrec, hd]
    · simp [decode_none hc, decodeOne, hc]

theorem decodeOne_of_decode_ok {B rest : List Byte} {p : Nat} {i : Instr} (h : decode (B.drop p) = .ok i rest) :
    decodeOne B p = .ok (recordOf i) := by
  rw [decodeOneIsTheDecoderAtAnOffset, h]

/-- A record comes from an instruction the decoder reads there. -/
theorem decode_of_decodeOne_ok {B : List Byte} {p : Nat} {r : DecodedInstruction} (h : decodeOne B p = .ok r) :
    ∃ i rest, decode (B.drop p) = .ok i rest ∧ r = recordOf i := by
  rw [decodeOneIsTheDecoderAtAnOffset] at h
  cases hd : decode (B.drop p) with
  | ok i rest => exact ⟨i, rest, rfl, by simpa [hd] using h.symm⟩
  | endOfStream => simp [hd] at h
  | error k b => simp [hd] at h

/-! ## Proofs of the decode family: `decode_stream`

The loop depends on the bytes from its offset on, and any fuel above their number gives the same (40_decode_sequencer.md R89). -/

/-- A decoded instruction's bytes and its record's `len` bytes are the same ones. -/
theorem drop_recordOf_len {bs rest : List Byte} {i : Instr} (h : decode bs = .ok i rest) :
    bs.drop (recordOf i).len = rest := by
  obtain ⟨-, rfl⟩ := encodeOfDecodeIsTheBytes bs rest i h
  obtain ⟨hlen, -, -, hrec⟩ := Laws.EncodedLength.all i
  rw [hrec, ← hlen, List.drop_left]

theorem decode_rest_lt {bs rest : List Byte} {i : Instr} (h : decode bs = .ok i rest) : rest.length < bs.length := by
  have hsum := decode_length h
  obtain ⟨-, hlo, -, -⟩ := Laws.EncodedLength.all i
  omega

theorem decodeLoop_congr {fuel fuel' : Nat} {B C : List Byte} {p q : Nat} (h : B.drop p = C.drop q)
    (hf : (B.drop p).length < fuel) (hf' : (B.drop p).length < fuel') :
    decodeLoop fuel B p = decodeLoop fuel' C q := by
  induction fuel generalizing fuel' p q with
  | zero => omega
  | succ fuel ih =>
    cases fuel' with
    | zero => omega
    | succ fuel' =>
      have hone : decodeOne B p = decodeOne C q := by rw [decodeOne_drop, h, ← decodeOne_drop]
      rw [decodeLoop, decodeLoop, ← hone]
      cases hr : decodeOne B p with
      | endOfStream => rfl
      | err k b => rfl
      | ok r =>
        obtain ⟨i, rest, hd, rfl⟩ := decode_of_decodeOne_ok hr
        have hB : B.drop (p + (recordOf i).len) = rest := by rw [← List.drop_drop, drop_recordOf_len hd]
        have hC : C.drop (q + (recordOf i).len) = rest := by rw [← List.drop_drop, ← h, drop_recordOf_len hd]
        have hlt := decode_rest_lt hd
        have hloop : decodeLoop fuel B (p + (recordOf i).len) = decodeLoop fuel' C (q + (recordOf i).len) :=
          ih (hB.trans hC.symm) (by rw [hB]; omega) (by rw [hB]; omega)
        simp only [hloop]

theorem decodeStream_of_one_ok {B : List Byte} {r : DecodedInstruction} (h : decodeOne B 0 = .ok r) :
    decodeStream B = (r :: (decodeStream (B.drop r.len)).1, (decodeStream (B.drop r.len)).2) := by
  obtain ⟨i, rest, hd, rfl⟩ := decode_of_decodeOne_ok h
  have hrest : B.drop (recordOf i).len = rest := drop_recordOf_len hd
  have hlt : rest.length < B.length := decode_rest_lt hd
  have hloop : decodeLoop B.length B (0 + (recordOf i).len) = decodeStream (B.drop (recordOf i).len) :=
    decodeLoop_congr (by simp) (by simpa [hrest] using hlt) (by simp)
  rw [decodeStream, decodeLoop, h]
  simp only [hloop]

/-- Settles O36: one round of the loop, by what it meets. -/
theorem decodeStreamMeetsItsLoop : Obligations.DecodeStreamMeetsItsLoop := fun B =>
  ⟨fun h => by simp [decodeStream, decodeLoop, h], fun k b h => by simp [decodeStream, decodeLoop, h],
    fun _ h => decodeStream_of_one_ok h⟩

theorem decodeStream_of_ok {bs rest : List Byte} {i : Instr} (h : decode bs = .ok i rest) :
    decodeStream bs = (recordOf i :: (decodeStream rest).1, (decodeStream rest).2) := by
  have hone := decodeStream_of_one_ok (decodeOne_of_decode_ok (B := bs) (p := 0) h)
  rwa [drop_recordOf_len h] at hone

theorem decodeStream_of_end {bs : List Byte} (h : decode bs = .endOfStream) : decodeStream bs = ([], .endOfStream) := by
  obtain ⟨hend, -, -⟩ := decodeStreamMeetsItsLoop bs
  exact hend (by simp [decodeOneIsTheDecoderAtAnOffset bs 0, h])

theorem decodeStream_of_error {bs : List Byte} {k : ErrKind} {b : Byte} (h : decode bs = .error k b) :
    decodeStream bs = ([], .err k b) := by
  obtain ⟨-, herr, -⟩ := decodeStreamMeetsItsLoop bs
  exact herr k b (by simp [decodeOneIsTheDecoderAtAnOffset bs 0, h])

/-- Settles O37, by induction on the list: each round decodes one encoding, whatever bytes follow it. -/
theorem decodeStreamOfEncodedInstructions : Obligations.DecodeStreamOfEncodedInstructions := by
  intro is tail hwf
  induction is with
  | nil => rfl
  | cons i is ih =>
    obtain ⟨hi, his⟩ := List.forall_mem_cons.mp hwf
    have hd := decodeOfEncodeIsTheInstruction i ((is.map encode).flatten ++ tail) hi
    rw [List.map_cons, List.flatten_cons, List.append_assoc, decodeStream_of_ok hd, ih his]
    rfl

end Sys2Proof.Machine

/-! ## Proofs of the decode family: the step and the step function of R82

The three things a step on a byte does, each found in the arms of R82 (40_decode_sequencer.md R82, R83). -/

namespace Sys2Proof.Machine

/-- After the byte that completes an instruction no further byte is awaited. -/
theorem awaitAfter_of_decode {s : State} {b : Byte} {i : Instr} (hc : s.coherent = true)
    (hd : decode (s.inflight ++ [b]) = .ok i []) : awaitAfter b s = none := by
  cases ha : awaitAfter b s with
  | none => rfl
  | some next =>
    obtain ⟨happ, hct, hnext⟩ := await_inflight hc ha
    rw [← happ, decode_inflight hct hnext] at hd
    contradiction

/-- The last byte of an instruction is latched in `MODRM` only (10_state.md R22). -/
theorem consume_of_complete {s : State} {b : Byte} (hin : s.st.inFlight = true) (ha : awaitAfter b s = none) :
    s.consume b = { s with pos := s.pos + 1, modrm := if s.st = .modrm then b else s.modrm } := by
  match hs : s.st with
  | .modrm => simp [State.consume, State.advance, State.latchModrm, hs]
  | .d8 | .d16H | .a16H | .i8 | .i16H => simp [State.consume, State.advance, hs]
  | .d16L | .a16L | .i16L => simp [awaitAfter, hs] at ha
  | .op | .done | .err => simp [SeqState.inFlight, hs] at hin

/-- Settles O19: a byte with which the bytes in flight decode awaits nothing more, so the step on it completes the instruction. -/
theorem stepRunsTheDecodedInstruction : Obligations.StepRunsTheDecodedInstruction := by
  intro s b i hc hev hd
  have hin := inFlight_of_decode hd
  have ha := awaitAfter_of_decode hc hd
  refine ⟨?_, consume_of_complete hin ha⟩
  rw [step_eq_of_byte hev, stepByte_of_complete hin ha hd, exec_eq]

/-- Settles O28: of the three things a step on a byte does, only completing an instruction emits a record. -/
theorem instrOnlyWithTheLastByte : Obligations.InstrOnlyWithTheLastByte := by
  intro s t r h hout
  obtain ⟨b, hev, hb⟩ | ⟨-, he⟩ := step_cases h
  · obtain ⟨next, -, rfl⟩ | ⟨i, -, hd, rfl⟩ | ⟨-, -, rfl⟩ := stepByte_next hb
    · simp at hout
    · obtain rfl : recordOf i = r := OutEvent.instr.inj hout
      obtain ⟨-, -, -, hlen⟩ := Laws.EncodedLength.all i
      exact ⟨b, i, hev, hd, rfl, by simpa [hlen] using (decode_length hd).symm, rfl⟩
    · simp at hout
  · obtain ⟨-, rfl⟩ | ⟨-, rfl⟩ := stepEos_next he <;> simp at hout

theorem recordOf_of_rm_bytes {opc m : Byte} {ext : List Byte} {i : Instr} (hc : cls opc = .rm)
    (h : decode (opc :: m :: ext) = .ok i []) : recordOf i = buildRm opc m ext := by
  rw [decode_rm hc] at h
  obtain ⟨_, ext', heq, -, hrec⟩ := recordOf_decodeRm h
  obtain ⟨rfl, rfl⟩ := List.cons.inj heq
  rw [hrec, List.append_nil]

theorem recordOf_of_imm_bytes {opc : Byte} {ext : List Byte} {i : Instr} (hc : cls opc = .imm)
    (h : decode (opc :: ext) = .ok i []) : recordOf i = buildImm opc ext := by
  rw [decode_imm hc] at h
  obtain ⟨ext', rfl, -, hrec⟩ := recordOf_decodeImm h
  rw [hrec, List.append_nil]

theorem sequencerR82_of_await {s : State} {b : Byte} {next : SeqState} (h : awaitAfter b s = some next) :
    sequencerR82 (.byte b) s = (s.consume b).await next := by
  match hs : s.st with
  | .op =>
    simp only [awaitAfter, hs, afterOpcode] at h
    split at h <;> rename_i hc <;> cases h <;>
      simp [sequencerR82, State.consume, State.advance, State.latchOpc, State.await, hs, hc]
  | .modrm =>
    simp only [awaitAfter, hs, afterModrm] at h
    simp only [sequencerR82, hs]
    split_ifs at h ⊢ <;> cases h <;> simp [State.consume, State.advance, State.latchModrm, State.await, hs]
  | .d16L | .a16L | .i16L =>
    simp only [awaitAfter, hs, Option.some.injEq] at h
    simp [← h, sequencerR82, State.consume, State.advance, State.latchLo, State.await, hs]
  | .d8 | .d16H | .a16H | .i8 | .i16H | .done | .err => simp [awaitAfter, hs] at h

theorem sequencerR82_of_unrecognized {s : State} {b : Byte} (hs : s.st = .op) (hc : cls b = .none) :
    sequencerR82 (.byte b) s = (s.consume b).raiseError .unrecognizedOpcode b := by
  simp [sequencerR82, hs, hc, State.consume, State.advance, State.latchOpc, State.raiseError]

/-- The latches hold the bytes the builders of R82 read. -/
theorem sequencerR82_of_complete {s : State} {b : Byte} {i : Instr} (hc : s.coherent = true)
    (hd : decode (s.inflight ++ [b]) = .ok i []) :
    sequencerR82 (.byte b) s = (s.consume b).emitInstr (recordOf i) := by
  have hin := inFlight_of_decode hd
  have ha := awaitAfter_of_decode hc hd
  rw [consume_of_complete hin ha]
  match hs : s.st with
  | .modrm =>
    simp only [State.coherent, State.inflight, awaitAfter, afterModrm, hs, beq_iff_eq] at hc hd ha
    rw [recordOf_of_rm_bytes hc hd]
    simp only [sequencerR82, hs]
    split_ifs at ha ⊢ <;> rfl
  | .d8 | .d16H | .a16H =>
    simp only [State.coherent, State.inflight, hs, Bool.and_eq_true, beq_iff_eq] at hc hd
    simp [recordOf_of_rm_bytes (by tauto) hd, sequencerR82, State.emitInstr, hs]
  | .i8 | .i16H =>
    simp only [State.coherent, State.inflight, hs, Bool.and_eq_true, beq_iff_eq] at hc hd
    obtain ⟨hcls, -⟩ := hc
    simp [recordOf_of_imm_bytes hcls hd, sequencerR82, State.emitInstr, hs]
  | .d16L | .a16L | .i16L => simp [awaitAfter, hs] at ha
  | .op | .done | .err => simp [SeqState.inFlight, hs] at hin

theorem sequencerR82_of_op_eos {s : State} (h : s.st = .op) : sequencerR82 .eos s = s.endRun := by
  simp [sequencerR82, h, State.endRun]

theorem sequencerR82_of_inFlight_eos {s : State} (h : s.st.inFlight = true) :
    sequencerR82 .eos s = s.raiseError .truncatedInstruction s.opc := by
  unfold sequencerR82
  split <;> rename_i hs <;> simp_all [SeqState.inFlight, State.raiseError]

/-- Where a step is enabled it is the step function of R82, the position after an error among it. -/
theorem stepOn_eq_sequencerR82 {s : State} (ev : Event) (hc : s.coherent = true) (hf : s.st.isFinal = false) :
    stepOn ev s = .next (sequencerR82 ev s) := by
  obtain ⟨t, ht⟩ := stepOn_progress ev hc hf
  rw [ht]
  cases ev with
  | byte b =>
    obtain ⟨next, ha, rfl⟩ | ⟨i, -, hd, rfl⟩ | ⟨hop, hcls, rfl⟩ := stepByte_next ht
    · rw [sequencerR82_of_await ha]
    · rw [sequencerR82_of_complete hc hd]
    · rw [sequencerR82_of_unrecognized hop hcls]
  | eos =>
    obtain ⟨hop, rfl⟩ | ⟨hin, rfl⟩ := stepEos_next ht
    · rw [sequencerR82_of_op_eos hop]
    · rw [sequencerR82_of_inFlight_eos hin]

theorem isFinal_eq_false_iff (st : SeqState) : st.isFinal = false ↔ st ≠ .done ∧ st ≠ .err := by
  cases st <;> simp [SeqState.isFinal]

/-- Settles O20: the two next states are the same one. -/
theorem stepIsTheSequencerOfR82 : Obligations.StepIsTheSequencerOfR82 := fun s hc hdone herr =>
  ⟨_, stepOn_eq_sequencerR82 s.event hc ((isFinal_eq_false_iff s.st).mpr ⟨hdone, herr⟩), rfl, fun _ => rfl⟩

theorem stepOn_source {ev : Event} {s t : State} (h : stepOn ev s = .next t) : t.source = s.source := by
  cases ev with
  | byte b => obtain ⟨-, -, -, -, hs⟩ := stepByte_frame h; exact hs
  | eos => obtain ⟨-, -, -, -, hs⟩ := stepEos_frame h; exact hs

/-- Settles O26: coherent latches give every event a next state, which is coherent again and has the same ByteSource. -/
theorem everyEnabledStepCompletes : Obligations.EveryEnabledStepCompletes := by
  intro s ev hc hready
  obtain ⟨t, ht⟩ := stepOn_progress ev hc (by simpa [State.inReady] using hready)
  exact ⟨t, ht, stepOn_coherent hc ht, stepOn_source ht⟩

theorem stepOn_done (ev : Event) {s : State} (h : s.st = .done) : stepOn ev s = .fault .stepInDone := by
  cases ev with
  | byte b => simp [stepOn, stepByte, h]
  | eos => simp [stepOn, stepEos, h]

theorem stepOn_err (ev : Event) {s : State} (h : s.st = .err) : stepOn ev s = .fault .stepInErr := by
  cases ev with
  | byte b => simp [stepOn, stepByte, h]
  | eos => simp [stepOn, stepEos, h]

/-- Settles O25: `in_ready` is 0, so an edge is a reset or idle. -/
theorem finalStatesTakeNoStep : Obligations.FinalStatesTakeNoStep := by
  intro s p h
  have hready : s.inReady = false := by
    obtain h | h := h <;> simp [State.inReady, SeqState.isFinal, h]
  exact ⟨stepOn_done s.event, stepOn_err s.event, hready, fun hr => clockEdge_of_idle hr (.inr hready),
    fun hr => ⟨_, clockEdge_of_rst hr s, rfl, rfl⟩⟩

end Sys2Proof.Machine

/-! ## Proofs of the decode family: how a run goes through an instruction

From a state in which a step is enabled the sequencer awaits bytes until a step decides: it ends the run, raises an error or completes
an instruction, as the decoder does on the bytes in flight and those to come (40_decode_sequencer.md R84, R90). -/

namespace Sys2Proof.Machine

/-- A state of a run in which a step is enabled. -/
structure State.Live (s : State) : Prop where
  wf : Memory.wf s.source = true
  coherent : s.coherent = true
  notFinal : s.st.isFinal = false

theorem State.Live.of_op {s : State} (hst : s.st = .op) (hw : Memory.wf s.source = true) : s.Live :=
  ⟨hw, coherent_of_op hst, by simp [hst, SeqState.isFinal]⟩

/-- The bytes of the instruction in flight and the bytes to come. -/
def State.pending (s : State) : List Byte := s.inflight ++ s.remaining

theorem pending_of_op {s : State} (h : s.st = .op) : s.pending = s.remaining := by
  simp [State.pending, State.inflight, h]

theorem event_of_remaining_cons {s : State} (hw : Memory.wf s.source = true) {b : Byte} {rest : List Byte}
    (h : s.remaining = b :: rest) : s.event = .byte b := by
  rw [event_of_wf hw, h]

theorem event_of_remaining_nil {s : State} (hw : Memory.wf s.source = true) (h : s.remaining = []) : s.event = .eos := by
  rw [event_of_wf hw, h]

theorem remaining_of_eos {s : State} (hw : Memory.wf s.source = true) (h : s.event = .eos) : s.remaining = [] := by
  rw [event_eos_iff hw] at h
  exact List.drop_eq_nil_of_le h

/-- A step on the byte presented takes it off the bytes to come. -/
theorem remaining_of_stepByte {s t : State} {b : Byte} (hw : Memory.wf s.source = true) (hev : s.event = .byte b)
    (h : stepByte b s = .next t) : s.remaining = b :: t.remaining := by
  obtain ⟨-, -, -, hpos, hsrc⟩ := stepByte_frame h
  rw [remaining_advance hpos hsrc]
  cases hr : s.remaining with
  | nil => simp [event_of_remaining_nil hw hr] at hev
  | cons c rest =>
    rw [event_of_remaining_cons hw hr, Event.byte.injEq] at hev
    rw [hev, List.tail_cons]

/-! ### Awaiting -/

theorem inFlight_not_final {st : SeqState} (h : st.inFlight = true) : st.isFinal = false := by
  cases st <;> simp_all [SeqState.inFlight, SeqState.isFinal]

section
variable {s : State} {b : Byte} {next : SeqState}

theorem State.Live.await (hs : s.Live) (ha : awaitAfter b s = some next) : ((s.consume b).await next).Live := by
  obtain ⟨-, hc, hnext⟩ := await_inflight hs.coherent ha
  exact ⟨by simpa using hs.wf, hc, inFlight_not_final hnext⟩

theorem pending_await (hs : s.Live) (hev : s.event = .byte b) (ha : awaitAfter b s = some next) :
    ((s.consume b).await next).pending = s.pending := by
  obtain ⟨happ, -, -⟩ := await_inflight hs.coherent ha
  rw [State.pending, State.pending, happ, remaining_of_stepByte hs.wf hev (stepByte_of_await ha), List.append_assoc]
  rfl

end

/-- `n` steps lead from one state to another, each on a byte after which the instruction awaits a further one. -/
inductive AwaitSteps : Nat → State → State → Prop where
  | refl (s : State) : AwaitSteps 0 s s
  | step {n : Nat} {s u : State} {b : Byte} {next : SeqState} (hev : s.event = .byte b) (ha : awaitAfter b s = some next)
      (h : AwaitSteps n ((s.consume b).await next) u) : AwaitSteps (n + 1) s u

theorem step_of_await {s : State} {b : Byte} {next : SeqState} (hev : s.event = .byte b)
    (ha : awaitAfter b s = some next) : step s = .next ((s.consume b).await next) := by
  rw [step_eq_of_byte hev, stepByte_of_await ha]

namespace AwaitSteps
variable {n : Nat} {s u : State}

theorem live (h : AwaitSteps n s u) (hs : s.Live) : u.Live := by
  induction h with
  | refl => exact hs
  | step _ ha _ ih => exact ih (hs.await ha)

theorem source_eq (h : AwaitSteps n s u) : u.source = s.source := by
  induction h with
  | refl => rfl
  | step hev ha _ ih => exact ih.trans (step_source (step_of_await hev ha))

theorem pos_eq (h : AwaitSteps n s u) : u.pos = s.pos + n := by
  induction h with
  | refl => rfl
  | step hev ha _ ih =>
    obtain ⟨-, -, -, hpos, -⟩ := stepByte_frame (stepByte_of_await ha)
    rw [ih, hpos]
    omega

theorem inflight_length (h : AwaitSteps n s u) (hs : s.Live) : u.inflight.length = s.inflight.length + n := by
  induction h with
  | refl => rfl
  | step hev ha _ ih =>
    obtain ⟨happ, -, -⟩ := await_inflight hs.coherent ha
    rw [ih (hs.await ha), happ, List.length_append, List.length_singleton]
    omega

theorem remaining_length (h : AwaitSteps n s u) (hs : s.Live) : s.remaining.length = n + u.remaining.length := by
  induction h with
  | refl => simp
  | step hev ha _ ih =>
    rw [remaining_of_stepByte hs.wf hev (stepByte_of_await ha), List.length_cons, ih (hs.await ha)]
    omega

theorem run_add (h : AwaitSteps n s u) (k : Nat) : Host.Core.run Sys2Proof.core (n + k) s = Host.Core.run Sys2Proof.core k u := by
  induction h with
  | refl => rw [Nat.zero_add]
  | step hev ha _ ih => rw [Nat.add_right_comm, core_run_next _ (step_of_await hev ha), ih]

theorem afterSteps_eq (h : AwaitSteps n s u) : State.afterSteps n s = u := by
  induction h with
  | refl => rfl
  | step hev ha _ ih => rw [State.afterSteps, step_of_await hev ha]; exact ih

/-- The outputs of the steps that await are `None`. -/
theorem runSteps_add (h : AwaitSteps n s u) (k : Nat) :
    runSteps (n + k) s = (List.replicate n OutEvent.none ++ (runSteps k u).1, (runSteps k u).2) := by
  induction h with
  | refl => simp
  | step hev ha _ ih => rw [Nat.add_right_comm, runSteps_next _ (step_of_await hev ha), ih]; rfl

end AwaitSteps

/-! ### Deciding -/

/-- The four ways in which a step ends the wait for bytes, each with what the decoder makes of the bytes pending and with the state
it leads to. -/
inductive Decides (u : State) : DecodeResult → State → Prop where
  | ends (hst : u.st = .op) (hev : u.event = .eos) : Decides u .endOfStream u.endRun
  | truncated (hin : u.st.inFlight = true) (hev : u.event = .eos) :
      Decides u (.error .truncatedInstruction u.opc) (u.raiseError .truncatedInstruction u.opc)
  | unrecognized {b : Byte} (hst : u.st = .op) (hev : u.event = .byte b) (hc : cls b = .none) :
      Decides u (.error .unrecognizedOpcode b) ((u.consume b).raiseError .unrecognizedOpcode b)
  | completes {b : Byte} {i : Instr} {rest : List Byte} (hrem : u.remaining = b :: rest) (hev : u.event = .byte b)
      (ha : awaitAfter b u = none) (hd : decode (u.inflight ++ [b]) = .ok i []) :
      Decides u (.ok i rest) ((u.consume b).emitInstr (recordOf i))

theorem Decides.step_eq {u t : State} {r : DecodeResult} (h : Decides u r t) : step u = .next t := by
  cases h with
  | ends hst hev => rw [step_eq_of_eos hev, stepEos_of_op hst]
  | truncated hin hev => rw [step_eq_of_eos hev, stepEos_of_inFlight hin]
  | unrecognized hst hev hc => rw [step_eq_of_byte hev, stepByte_of_unrecognized hst hc]
  | completes _ hev ha hd => rw [step_eq_of_byte hev, stepByte_of_complete (inFlight_of_decode hd) ha hd]

/-- A step that decides for an instruction consumes its last byte, emits its record and leaves the bytes behind it to come. -/
theorem Decides.of_ok {u t : State} {i : Instr} {rest : List Byte} (hw : Memory.wf u.source = true)
    (h : Decides u (.ok i rest) t) :
    ∃ b, u.event = .byte b ∧ decode (u.inflight ++ [b]) = .ok i [] ∧ t.st = .op ∧ t.out = .instr (recordOf i) ∧
      t.pos = u.pos + 1 ∧ t.source = u.source ∧ u.remaining = b :: rest ∧ t.remaining = rest := by
  have hstep := h.step_eq
  cases h with
  | @completes b _ _ hrem hev _ hd =>
    have hb := (step_eq_of_byte hev).symm.trans hstep
    obtain ⟨-, -, -, hpos, hsrc⟩ := stepByte_frame hb
    obtain ⟨-, hrest⟩ := List.cons.inj (hrem.symm.trans (remaining_of_stepByte hw hev hb))
    exact ⟨b, hev, hd, rfl, rfl, hpos, hsrc, hrem, hrest.symm⟩

theorem decides_of_eos {s : State} (hs : s.Live) (hrem : s.remaining = []) : ∃ t, Decides s (decode s.pending) t := by
  have hev := event_of_remaining_nil hs.wf hrem
  by_cases hop : s.st = .op
  · rw [pending_of_op hop, hrem]
    exact ⟨_, .ends hop hev⟩
  · have hin := inFlight_of_not_op hs.notFinal hop
    rw [State.pending, hrem, List.append_nil, decode_inflight hs.coherent hin]
    exact ⟨_, .truncated hin hev⟩

theorem decides_of_byte {s : State} {b : Byte} {rest : List Byte} (hs : s.Live) (hrem : s.remaining = b :: rest)
    (ha : awaitAfter b s = none) : ∃ t, Decides s (decode s.pending) t := by
  have hev := event_of_remaining_cons hs.wf hrem
  by_cases hop : s.st = .op
  · have hc : cls b = .none := by simpa [awaitAfter, hop, afterOpcode_eq_none] using ha
    rw [pending_of_op hop, hrem, decode_none hc]
    exact ⟨_, .unrecognized hop hev hc⟩
  · obtain ⟨i, hd⟩ := decode_of_complete hs.coherent (inFlight_of_not_op hs.notFinal hop) ha
    have hpend : s.pending = (s.inflight ++ [b]) ++ rest := by rw [State.pending, hrem, List.append_cons]
    rw [hpend, decode_append hd, List.nil_append]
    exact ⟨_, .completes hrem hev ha hd⟩

/-- The sequencer decides as the decoder does on the bytes pending, after the steps that await the bytes it needs for it. -/
theorem exists_decides {s : State} (hs : s.Live) :
    ∃ n u t, AwaitSteps n s u ∧ Decides u (decode s.pending) t := by
  induction hrem : s.remaining generalizing s with
  | nil =>
    obtain ⟨t, hD⟩ := decides_of_eos hs hrem
    exact ⟨0, s, t, .refl s, hD⟩
  | cons b rest ih =>
    cases ha : awaitAfter b s with
    | none =>
      obtain ⟨t, hD⟩ := decides_of_byte hs hrem ha
      exact ⟨0, s, t, .refl s, hD⟩
    | some next =>
      have hev := event_of_remaining_cons hs.wf hrem
      have hrest := remaining_of_stepByte hs.wf hev (stepByte_of_await ha)
      obtain ⟨-, hrest⟩ := List.cons.inj (hrem.symm.trans hrest)
      obtain ⟨n, u, t, hA, hD⟩ := ih (hs.await ha) hrest.symm
      rw [pending_await hs hev ha] at hD
      exact ⟨n + 1, u, t, .step hev ha hA, hD⟩

/-- When the wait began at a boundary, it took one step fewer than the instruction has bytes, and the bytes completed are its
encoding. -/
theorem completes_from_boundary {n : Nat} {s u : State} {b : Byte} {i : Instr} (hs : s.Live) (hst : s.st = .op)
    (hA : AwaitSteps n s u) (hd : decode (u.inflight ++ [b]) = .ok i []) :
    i.length = n + 1 ∧ u.inflight ++ [b] = encode i := by
  obtain ⟨-, henc⟩ := encodeOfDecodeIsTheBytes _ _ _ hd
  have hlen := decode_length hd
  have hin := hA.inflight_length hs
  simp only [State.inflight, hst, List.length_append, List.length_singleton, List.length_nil] at hlen hin
  exact ⟨by simpa [hin] using hlen.symm, by rw [← henc, List.append_nil]⟩

/-- Settles O21: the steps that await, and then the one that decides for the instruction. -/
theorem instructionRunsInLenSteps : Obligations.InstructionRunsInLenSteps := by
  intro i s rest hwf hst hw hrem
  have hs : s.Live := .of_op hst hw
  obtain ⟨n, u, t, hA, hD⟩ := exists_decides hs
  rw [pending_of_op hst, hrem, decodeOfEncodeIsTheInstruction i rest hwf] at hD
  obtain ⟨b, -, hd, hop, hout, hpos, hsrc, -, hrest⟩ := hD.of_ok (hA.live hs).wf
  obtain ⟨hlen, -⟩ := completes_from_boundary hs hst hA hd
  obtain ⟨-, -, -, hrec⟩ := Laws.EncodedLength.all i
  rw [hrec, hlen]
  refine ⟨t, ?_, ?_, hop, ?_, hrest, hsrc.trans hA.source_eq⟩
  · rw [hA.run_add 1, core_run_next 0 hD.step_eq]
    rfl
  · rw [hA.runSteps_add 1, runSteps_next 0 hD.step_eq, hout]
    rfl
  · rw [hpos, hA.pos_eq, Nat.add_assoc]

/-! ### A word placed for the next step -/

/-- Bytes placed at an offset are the ones at that offset. -/
theorem drop_overlay (xs : List Byte) (start : Nat) (bs : List Byte) :
    (overlay xs start bs).drop start = bs ++ xs.drop (start + bs.length) := by
  have hlen : ((xs ++ List.replicate (start - xs.length) 0x00#8).take start).length = start := by
    simp only [List.length_take, List.length_append, List.length_replicate]
    omega
  rw [overlay, List.append_assoc, List.drop_append_of_le_length (by omega), List.drop_of_length_le (by omega), List.nil_append]

theorem decode_of_decodeTableWord {nbits w : Nat} {i : Instr} (h : decodeTableWord nbits w = some i) :
    ∃ rest, decode (tableBytes nbits w) = .ok i rest := by
  unfold decodeTableWord at h
  split at h
  · next j rest hd => exact ⟨rest, by rw [hd, Option.some.inj h]⟩
  · contradiction
  · contradiction

/-- The block at a boundary with the word's bytes next in the ByteSource. -/
def State.withPlaced (nbits w : Nat) (s : State) : State :=
  { s with st := .op, source := Memory.place s.source s.pos (tableBytes nbits w) }

theorem withPlaced_live (nbits w : Nat) (s : State) : (s.withPlaced nbits w).Live :=
  .of_op rfl (place_wf _ _ _)

theorem withFetchWord_eq {nbits w : Nat} {i : Instr} (h : decodeTableWord nbits w = some i) (s : State) :
    s.withFetchWord nbits w = State.afterSteps (i.length - 1) (s.withPlaced nbits w) := by
  rw [State.withFetchWord, h]
  rfl

theorem decode_withPlaced {nbits w : Nat} {i : Instr} (h : decodeTableWord nbits w = some i) (s : State) :
    ∃ rest, decode (s.withPlaced nbits w).pending = .ok i rest := by
  obtain ⟨rest, hd⟩ := decode_of_decodeTableWord h
  have hrem : (s.withPlaced nbits w).remaining =
      tableBytes nbits w ++ (Memory.bytes s.source).drop (s.pos + (tableBytes nbits w).length) := by
    simp only [State.remaining, State.withPlaced, Memory.place, bytes_ofBytes, drop_overlay]
  exact ⟨_, by rw [pending_of_op rfl, hrem, decode_append hd]⟩

/-- Settles O43: the steps `withFetchWord` takes are the ones that await, so the next step decides for the instruction. -/
theorem placedWordRunsNext : Obligations.PlacedWordRunsNext := by
  intro s nbits w i h
  have hs := withPlaced_live nbits w s
  obtain ⟨rest, hpend⟩ := decode_withPlaced h s
  obtain ⟨n, u, t, hA, hD⟩ := exists_decides hs
  rw [hpend] at hD
  have hlive := hA.live hs
  obtain ⟨b, hev, hd, -⟩ := hD.of_ok hlive.wf
  obtain ⟨hlen, henc⟩ := completes_from_boundary hs rfl hA hd
  have hu : s.withFetchWord nbits w = u := by
    rw [withFetchWord_eq h, hlen, Nat.add_sub_cancel, hA.afterSteps_eq]
  have hpos : u.pos = s.pos + n := hA.pos_eq
  obtain ⟨hrun, -⟩ := stepRunsTheDecodedInstruction u b i hlive.coherent hev hd
  rw [hu]
  exact ⟨b, hev, henc, by omega, hrun⟩

/-! ## Proofs of the decode family: whole runs -/

theorem runSteps_length_le (k : Nat) (s : State) : (runSteps k s).1.length ≤ k := by
  induction k generalizing s with
  | zero => exact Nat.le_refl 0
  | succ k ih =>
    rw [runSteps]
    split
    · next t _ => exact Nat.succ_le_succ (ih t)
    · exact Nat.zero_le _
    · exact Nat.zero_le _

theorem stepEos_final {s t : State} (h : stepEos s = .next t) : t.st.isFinal = true := by
  obtain ⟨-, rfl⟩ | ⟨-, rfl⟩ := stepEos_next h <;> rfl

/-- Each step takes a byte off those to come, and the one on `EOS` is the last. -/
theorem runSteps_isFinal {k : Nat} {s : State} (hw : Memory.wf s.source = true) (hc : s.coherent = true)
    (hk : s.remaining.length < k) : (runSteps k s).2.st.isFinal = true := by
  induction k generalizing s with
  | zero => omega
  | succ k ih =>
    cases hf : s.st.isFinal with
    | true => rwa [runSteps_final _ hf]
    | false =>
      obtain ⟨t, (ht : step s = .next t)⟩ := stepOn_progress s.event hc hf
      rw [runSteps_next k ht]
      obtain ⟨b, hev, hb⟩ | ⟨-, he⟩ := step_cases ht
      · rw [remaining_of_stepByte hw hev hb, List.length_cons] at hk
        exact ih (step_source ht ▸ hw) (step_coherent hc ht) (by omega)
      · rw [runSteps_final _ (stepEos_final he), stepEos_final he]

/-- Settles O39: with one step more than there are bytes to come, a run reaches a final state. -/
theorem everyRunEnds : Obligations.EveryRunEnds := by
  intro s hs
  obtain ⟨hw, hc, -, -⟩ := hs
  exact ⟨by simp [State.inReady, runSteps_isFinal hw hc (Nat.lt_succ_self _)], runSteps_length_le _ s⟩

theorem visible_replicate_none (n : Nat) (es : List OutEvent) :
    visible (List.replicate n OutEvent.none ++ es) = visible es := by
  simp [visible]

theorem visible_cons {e : OutEvent} (h : e ≠ .none) (es : List OutEvent) : visible (e :: es) = e :: visible es := by
  simp [visible, h]

/-- A run from `s` shows what `decode_stream` makes of the bytes to come (40_decode_sequencer.md R90). -/
structure ShowsStream (s : State) (run : List OutEvent × State) : Prop where
  outputs : visible run.1 = (decodeStream s.remaining).1.map OutEvent.instr ++ [(decodeStream s.remaining).2.event]
  st_eq : run.2.st = (decodeStream s.remaining).2.finalState
  pos_eq : (decodeStream s.remaining).2 = .endOfStream → run.2.pos = s.pos + s.remaining.length

/-- The run stops with the event that says how the stream ends. -/
theorem showsStream_of_end {n : Nat} {s t : State} {e : StreamEnd} (hds : decodeStream s.remaining = ([], e))
    (hout : t.out = e.event) (hst : t.st = e.finalState)
    (hpos : e = .endOfStream → t.pos = s.pos + s.remaining.length) :
    ShowsStream s (List.replicate n OutEvent.none ++ [t.out], t) := by
  refine ⟨?_, by rw [hds, hst], by rw [hds]; exact hpos⟩
  rw [hds, visible_replicate_none, hout, visible_cons (by cases e <;> simp [StreamEnd.event])]
  rfl

/-- The run emits a record and goes on behind its instruction. -/
theorem showsStream_of_instr {n : Nat} {s t : State} {i : Instr} {run : List OutEvent × State}
    (hd : decode s.remaining = .ok i t.remaining) (hout : t.out = .instr (recordOf i))
    (hpos : t.pos + t.remaining.length = s.pos + s.remaining.length) (hrun : ShowsStream t run) :
    ShowsStream s (List.replicate n OutEvent.none ++ t.out :: run.1, run.2) := by
  have hds := decodeStream_of_ok hd
  refine ⟨?_, by rw [hds]; exact hrun.st_eq, fun hend => ?_⟩
  · rw [hds, visible_replicate_none, hout, visible_cons (by simp), hrun.outputs]
    rfl
  · rw [hds] at hend
    rw [hrun.pos_eq hend, hpos]

/-- From a boundary, by induction on the number of steps: one instruction a round. -/
theorem runSteps_showsStream {k : Nat} {s : State} (hst : s.st = .op) (hw : Memory.wf s.source = true)
    (hk : s.remaining.length < k) : ShowsStream s (runSteps k s) := by
  induction k using Nat.strongRecOn generalizing s with
  | ind k ih =>
    have hs : s.Live := .of_op hst hw
    obtain ⟨n, u, t, hA, hD⟩ := exists_decides hs
    have hwu := (hA.live hs).wf
    have hstep := hD.step_eq
    have hpos := hA.pos_eq
    have hlen := hA.remaining_length hs
    obtain ⟨k, rfl⟩ : ∃ k', k = n + (k' + 1) := ⟨k - n - 1, by omega⟩
    rw [hA.runSteps_add, runSteps_next k hstep]
    rw [pending_of_op hst] at hD
    generalize hd : decode s.remaining = r at hD
    cases hD with
    | ends _ hev =>
      rw [runSteps_final (s := u.endRun) k rfl]
      refine showsStream_of_end (decodeStream_of_end hd) rfl rfl fun _ => ?_
      rw [hlen, remaining_of_eos hwu hev]
      exact hpos
    | truncated =>
      rw [runSteps_final (s := u.raiseError _ _) k rfl]
      exact showsStream_of_end (decodeStream_of_error hd) rfl rfl nofun
    | @unrecognized b =>
      rw [runSteps_final (s := (u.consume b).raiseError _ _) k rfl]
      exact showsStream_of_end (decodeStream_of_error hd) rfl rfl nofun
    | completes hrem hev ha hc =>
      obtain ⟨b, -, -, hop, hout, hpost, hsrc, hbytes, rfl⟩ := Decides.of_ok hwu (.completes hrem hev ha hc)
      have hlenu := congrArg List.length hbytes
      rw [List.length_cons] at hlenu
      exact showsStream_of_instr hd hout (by omega) (ih k (by omega) hop (hsrc ▸ hwu) (by omega))

/-- Settles O38: from reset every byte of the sequence is to come. -/
theorem runAgreesWithDecodeStream : Obligations.RunAgreesWithDecodeStream := by
  intro B
  have hrem : (State.loadSource B State.reset).remaining = B := by
    simp [State.remaining]
  obtain ⟨hout, hst, hpos⟩ := runSteps_showsStream (k := B.length + 1) (s := State.loadSource B State.reset) rfl
    (ofBytes_wf B) (by rw [hrem]; exact Nat.lt_succ_self _)
  rw [hrem] at hout hst hpos
  rw [loadSource_pos, Nat.zero_add] at hpos
  exact ⟨hout, hst, hpos⟩

end Sys2Proof.Machine

/-! ## Proofs of the register/memory family: the resolver, the builder and the four moves

The record an instruction emits, written with the addressing-mode resolver over its bytes (41_mov_rm_reg.md R101 to R112). -/

namespace Sys2Proof.Machine

/-- Settles O8: each case from the tests on mod and rm that select it. -/
theorem resolverCases : Obligations.ResolverCases := by
  intro w rm b0 b1
  refine ⟨rfl, fun hrm => ?_, rfl, rfl, rfl⟩
  simp [resolve, hrm, mapMem]

/-! ### The builder -/

theorem direct_fst (d : Bit) (r x : Operand) : (direct d r x).1 = if d = 1#1 then r else x :=
  apply_ite Prod.fst _ _ _

theorem direct_snd (d : Bit) (r x : Operand) : (direct d r x).2 = if d = 1#1 then x else r :=
  apply_ite Prod.snd _ _ _

/-- As many extra bytes as the length rule calls for decode, together with the two bytes before them, to an instruction with the
record of `build_rm`. -/
theorem exists_decode_of_rm_bytes {opc m : Byte} {ext : List Byte} (hc : cls opc = .rm) (hlen : ext.length = extra m)
    (rest : List Byte) :
    ∃ i, decode (opc :: m :: (ext ++ rest)) = .ok i rest ∧ recordOf i = buildRm opc m ext := by
  obtain ⟨i, rest', hd⟩ := decodeRm_of_long (opc := opc) (show extra m ≤ (ext ++ rest).length by simp [hlen])
  obtain ⟨_, ext', heq, hlen', hrec⟩ := recordOf_decodeRm hd
  obtain ⟨rfl, happ⟩ := List.cons.inj heq
  obtain ⟨rfl, rfl⟩ := List.append_inj happ (hlen.trans hlen'.symm)
  exact ⟨i, (decode_rm hc _).trans hd, hrec⟩

/-- Settles O9: the instruction decoded has the record of `build_rm`, whose operands are read through the direction resolver. -/
theorem regMemBytesRunAsBuildRm : Obligations.RegMemBytesRunAsBuildRm := by
  intro opc m ext rest hc hlen
  obtain ⟨i, hd, hrec⟩ := exists_decode_of_rm_bytes hc hlen rest
  refine ⟨i, hd, fun s => ?_⟩
  rw [exec_eq, hrec, buildRm, direct_fst, direct_snd]
  rfl

/-! ### The four moves -/

/-- With d = 0 the r/m operand is the destination (R106, R109, R110). -/
theorem recordRm_to_rm (w : Bit) (reg : Index) {x : RmForm} (hx : x.wellFormed = true) :
    recordRm 0#1 w reg x =
      { mnemonic := .mov, w := w, dst := resolve w x.modBits x.rmBits x.encodeExtra, src := .register w reg,
        len := x.encodeExtra.length + 2 } := by
  rw [resolve_of_form w x hx, encodeExtra_length, Nat.add_comm]
  rfl

/-- With d = 1 the register is the destination (R106, R111, R112). -/
theorem recordRm_to_reg (w : Bit) (reg : Index) {x : RmForm} (hx : x.wellFormed = true) :
    recordRm 1#1 w reg x =
      { mnemonic := .mov, w := w, dst := .register w reg, src := resolve w x.modBits x.rmBits x.encodeExtra,
        len := x.encodeExtra.length + 2 } := by
  rw [resolve_of_form w x hx, encodeExtra_length, Nat.add_comm]
  rfl

theorem exec_of_recordOf (i : Instr) {r : DecodedInstruction} (h : recordOf i = r) (s : State) :
    exec i s = .next (s.emitInstr r) := by
  rw [exec_eq, h]

/-- Settles O11: the record of d = 0, w = 0. -/
theorem movRm8R8Completes : Obligations.MovRm8R8Completes := fun x reg s hx =>
  ⟨rfl, exec_of_recordOf (.movRm8R8 x reg) (recordRm_to_rm 0#1 reg hx) s⟩

/-- Settles O12: the record of d = 0, w = 1. -/
theorem movRm16R16Completes : Obligations.MovRm16R16Completes := fun x reg s hx =>
  ⟨rfl, exec_of_recordOf (.movRm16R16 x reg) (recordRm_to_rm 1#1 reg hx) s⟩

/-- Settles O13: the record of d = 1, w = 0. -/
theorem movR8Rm8Completes : Obligations.MovR8Rm8Completes := fun reg x s hx =>
  ⟨rfl, exec_of_recordOf (.movR8Rm8 reg x) (recordRm_to_reg 0#1 reg hx) s⟩

/-- Settles O14: the record of d = 1, w = 1. -/
theorem movR16Rm16Completes : Obligations.MovR16Rm16Completes := fun reg x s hx =>
  ⟨rfl, exec_of_recordOf (.movR16Rm16 reg x) (recordRm_to_reg 1#1 reg hx) s⟩

/-- Settles O17: every meaning only emits its instruction's record. -/
theorem instructionFrame : Obligations.InstructionFrame := by
  intro i s t h
  rw [exec_eq] at h
  obtain rfl := Host.Outcome.next.inj h
  exact ⟨rfl, rfl, rfl, rfl, rfl, fun _ => rfl, rfl, _, rfl⟩

end Sys2Proof.Machine

/-! ## Proofs of the immediate family: the builder and the two moves

The opcode byte and the immediate of the F-IMM format as numbers, and the record of `build_imm` (42_mov_imm_reg.md R117 to R125). -/

namespace Sys2Proof

/-! ### The encoding as numbers -/

theorem imm8_opcode_toNat (reg : Index) : (0b10110#5 ++ reg).toNat = 0xB0 + reg.toNat :=
  Machine.append_toNat 0b10110#5 reg

theorem imm16_opcode_toNat (reg : Index) : (0b10111#5 ++ reg).toNat = 0xB8 + reg.toNat :=
  Machine.append_toNat 0b10111#5 reg

theorem lowByte_toNat (v : Word16) : (lowByte v).toNat = v.toNat % 256 :=
  BitVec.extractLsb'_toNat 0 8 v

theorem highByte_toNat (v : Word16) : (highByte v).toNat = v.toNat / 256 := by
  have := v.isLt
  rw [highByte, BitVec.extractLsb'_toNat, Nat.shiftRight_eq_div_pow]
  omega

end Sys2Proof

namespace Sys2Proof.Machine

/-! ### The builder -/

/-- Zero extension puts eight zero bits above the byte (00_scope.md R10). -/
theorem zext16_eq_append (b : Byte) : zext16 b = 0#8 ++ b :=
  BitVec.setWidth_eq_append (by decide)

/-- Settles O10: the width bit says which of the two moves the bytes decode to. -/
theorem immediateBytesRunAsBuildImm : Obligations.ImmediateBytesRunAsBuildImm := by
  intro opc i0 i1 rest hc
  constructor
  · intro hw
    refine ⟨_, decode_imm8 hc hw i0 rest, exec_of_recordOf _ ?_⟩
    rw [recordOf, imm8Operand, zext16_eq_append]
    rfl
  · intro hw
    exact ⟨_, decode_imm16 hc hw i0 i1 rest, exec_eq _⟩

/-! ### The two moves -/

/-- Settles O15: the immediate is the byte, zero-extended. -/
theorem movR8Imm8Completes : Obligations.MovR8Imm8Completes := fun reg imm s =>
  ⟨by simp [encode, imm8_opcode_toNat], zext16 imm, zext16_toNat imm, exec_eq (.movR8Imm8 reg imm) s⟩

/-- Settles O16: the immediate is the value itself, whose bytes the encoding holds low byte first. -/
theorem movR16Imm16Completes : Obligations.MovR16Imm16Completes := fun reg imm s =>
  ⟨by simp [encode, imm16_opcode_toNat, lowByte_toNat, highByte_toNat], exec_eq (.movR16Imm16 reg imm) s⟩

end Sys2Proof.Machine

/-! ## Proofs of the rendering family: decimal text, operand text and the text of a stream

Decimal text is the digits of `n / 10` and the last digit of `n`; every statement about it is one induction on that equation.
Which characters a line holds is proved operand by operand, and a stream's line feeds are then those the driver adds
(49_rendering.md R126 to R145). -/

namespace Sys2Proof.Machine

/-! ### Decimal text -/

theorem digitChar_toNat {n : Nat} (h : n < 10) : (digitChar n).toNat = n + 48 := by
  have hvalid : (n + 48).isValidChar := by unfold Nat.isValidChar; omega
  rw [digitChar, Char.toNat_ofNat, if_pos hvalid]

/-- Fuel above the number does not change its digits. -/
theorem decDigits_fuel_irrel {fuel fuel' n : Nat} (h : n < fuel) (h' : n < fuel') :
    decDigits fuel n = decDigits fuel' n := by
  induction fuel generalizing fuel' n with
  | zero => omega
  | succ fuel ih =>
    cases fuel' with
    | zero => omega
    | succ fuel' =>
      by_cases hn : n < 10
      · rw [decDigits, decDigits, if_pos hn, if_pos hn]
      · rw [decDigits, decDigits, if_neg hn, if_neg hn, ih (by omega : n / 10 < fuel) (by omega : n / 10 < fuel')]

theorem decNat_of_lt {n : Nat} (h : n < 10) : decNat n = [digitChar n] := by
  rw [decNat, decDigits, if_pos h]

theorem decNat_of_ge {n : Nat} (h : 10 ≤ n) : decNat n = decNat (n / 10) ++ [digitChar (n % 10)] := by
  have hfuel : decDigits n (n / 10) = decNat (n / 10) := decDigits_fuel_irrel (by omega) (by omega)
  rw [decNat, decDigits, if_neg (by omega), hfuel]

/-- The induction along the digits of a number: the one-digit numbers, and from `n / 10` to `n`. -/
theorem decimal_induction {P : Nat → Prop} (one : ∀ n < 10, P n) (more : ∀ n, 10 ≤ n → P (n / 10) → P n) (n : Nat) :
    P n := by
  induction n using Nat.strong_induction_on with
  | h n ih =>
    by_cases hn : n < 10
    · exact one n hn
    · exact more n (by omega) (ih (n / 10) (by omega))

/-- The number a text of digits denotes, read from the left. -/
abbrev readDecimal (t : Text) : Nat := t.foldl (fun v c => 10 * v + (c.toNat - 48)) 0

theorem readDecimal_decNat (n : Nat) : readDecimal (decNat n) = n := by
  induction n using decimal_induction with
  | one n hn => simp [decNat_of_lt hn, digitChar_toNat hn]
  | more n hn ih =>
    have hdigit := digitChar_toNat (Nat.mod_lt n (by decide : 10 > 0))
    calc readDecimal (decNat n)
      _ = 10 * readDecimal (decNat (n / 10)) + ((digitChar (n % 10)).toNat - 48) := by
        rw [decNat_of_ge hn, readDecimal, List.foldl_append]
        rfl
      _ = n := by rw [ih, hdigit]; omega

/-- The character is one of `0` to `9`. -/
abbrev IsDigit (c : Char) : Prop := 48 ≤ c.toNat ∧ c.toNat ≤ 57

theorem isDigit_digitChar {n : Nat} (h : n < 10) : IsDigit (digitChar n) := by
  rw [IsDigit, digitChar_toNat h]
  omega

theorem decNat_isDigit (n : Nat) : ∀ c ∈ decNat n, IsDigit c := by
  induction n using decimal_induction with
  | one n hn => simpa [decNat_of_lt hn] using isDigit_digitChar hn
  | more n hn ih =>
    rw [decNat_of_ge hn, List.forall_mem_append, List.forall_mem_singleton]
    exact ⟨ih, isDigit_digitChar (Nat.mod_lt n (by decide))⟩

/-- The text has a first character, and it is no `0` unless the number is zero. -/
theorem exists_decNat_head (n : Nat) : ∃ c, (decNat n).head? = some c ∧ (n ≠ 0 → c ≠ '0') := by
  induction n using decimal_induction with
  | one n hn =>
    refine ⟨digitChar n, by rw [decNat_of_lt hn, List.head?_cons], fun h0 hc => h0 ?_⟩
    have hcode : n + 48 = 48 := (digitChar_toNat hn).symm.trans (congrArg Char.toNat hc)
    omega
  | more n hn ih =>
    obtain ⟨c, hhead, hc⟩ := ih
    exact ⟨c, by rw [decNat_of_ge hn, List.head?_append, hhead, Option.some_or], fun _ => hc (by omega)⟩

@[simp] theorem dec_natCast (n : Nat) : dec (n : Int) = decNat n := rfl

theorem dec_neg_natCast {n : Nat} (h : n ≠ 0) : dec (-(n : Int)) = '-' :: decNat n := by
  obtain ⟨m, rfl⟩ := Nat.exists_eq_succ_of_ne_zero h
  rfl

/-- Settles O51, by the induction along the digits. -/
theorem decimalTextDenotesTheNumber : Obligations.DecimalTextDenotesTheNumber := by
  refine ⟨fun n => ?_, rfl, fun n hn => dec_neg_natCast hn⟩
  obtain ⟨c, hhead, hc⟩ := exists_decNat_head n
  rw [dec_natCast]
  refine ⟨readDecimal_decNat n, decNat_isDigit n, fun hn => ?_, List.ne_nil_of_mem (List.mem_of_head? hhead)⟩
  simpa [hhead] using hc hn

/-! ### The text of an operand and of a record -/

theorem render_eq (r : DecodedInstruction) :
    render r = "mov ".toList ++ operandText r.dst ++ ", ".toList ++ operandText r.src := rfl

/-- Settles O48: a memory operand's text begins with its bracket. -/
theorem rendererForms : Obligations.RendererForms :=
  ⟨render_eq, fun _ _ => rfl, fun _ v => (dec_natCast v.toNat).symm,
    fun k => by simp [operandText, dispText], fun _ => rfl, fun _ _ => rfl⟩

/-- The two's complement value (00_scope.md R10). -/
theorem toInt_eq_ite {n : Nat} (x : BitVec (n + 1)) :
    x.toInt = if x.toNat < 2 ^ n then (x.toNat : Int) else (x.toNat : Int) - (2 ^ (n + 1) : Nat) := by
  have hhalf : 2 * x.toNat < 2 ^ (n + 1) ↔ x.toNat < 2 ^ n := by rw [Nat.pow_succ]; omega
  simp only [BitVec.toInt_eq_toNat_cond, hhalf]

/-- Settles O49: a displacement is its two's complement value. -/
theorem displacementAndAddressText : Obligations.DisplacementAndAddressText :=
  ⟨fun _ => rfl,
    fun k b => by rw [operandText, dispText, toInt_eq_ite (n := 7) b, ← List.append_assoc]; rfl,
    fun k v => by rw [operandText, dispText, toInt_eq_ite (n := 15) v, ← List.append_assoc]; rfl⟩

/-- Settles O50: the line is made of the two operands' texts alone. -/
theorem textIgnoresLenAndWidth : Obligations.TextIgnoresLenAndWidth := fun r w len => by
  rw [render_eq, render_eq]

/-! ### The characters of a line -/

/-- A lower-case letter, a digit or one of the fixed punctuation (49_rendering.md R139). -/
abbrev IsLineChar (c : Char) : Prop :=
  (97 ≤ c.toNat ∧ c.toNat ≤ 122) ∨ IsDigit c ∨ c ∈ [' ', ',', '[', ']', '+', '-']

/-- The check of a fixed text, which runs along the text: `decide` would try the bounded statement on all of `Char`. -/
theorem isLineChar_of_all {t : Text} (h : t.all (fun c => decide (IsLineChar c)) = true) : ∀ c ∈ t, IsLineChar c :=
  fun c hc => of_decide_eq_true (List.all_eq_true.mp h c hc)

theorem regName_isLineChar (w : Bit) (i : Index) : ∀ c ∈ regName w i, IsLineChar c :=
  isLineChar_of_all (by revert w i; decide)

theorem baseText_isLineChar (k : Index) : ∀ c ∈ baseText k, IsLineChar c :=
  isLineChar_of_all (by revert k; decide)

theorem decNat_isLineChar (n : Nat) : ∀ c ∈ decNat n, IsLineChar c := fun c hc =>
  .inr (.inl (decNat_isDigit n c hc))

theorem dec_isLineChar : ∀ z : Int, ∀ c ∈ dec z, IsLineChar c
  | .ofNat n => decNat_isLineChar n
  | .negSucc n => List.forall_mem_cons.mpr ⟨by decide, decNat_isLineChar (n + 1)⟩

theorem append_isLineChar {s t : Text} (hs : ∀ c ∈ s, IsLineChar c) (ht : ∀ c ∈ t, IsLineChar c) :
    ∀ c ∈ s ++ t, IsLineChar c :=
  List.forall_mem_append.mpr ⟨hs, ht⟩

theorem brackets_isLineChar {t : Text} (ht : ∀ c ∈ t, IsLineChar c) :
    ∀ c ∈ "[".toList ++ t ++ "]".toList, IsLineChar c :=
  append_isLineChar (append_isLineChar (isLineChar_of_all (by decide)) ht) (isLineChar_of_all (by decide))

theorem dispText_isLineChar : ∀ disp : Disp, ∀ c ∈ dispText disp, IsLineChar c
  | .noDisp => List.forall_mem_nil _
  | .disp8 b => append_isLineChar (isLineChar_of_all (by decide)) (dec_isLineChar b.toInt)
  | .disp16 v => append_isLineChar (isLineChar_of_all (by decide)) (dec_isLineChar v.toInt)

theorem operandText_isLineChar : ∀ x : Operand, ∀ c ∈ operandText x, IsLineChar c
  | .register w i => regName_isLineChar w i
  | .directMemory a => brackets_isLineChar (decNat_isLineChar a.toNat)
  | .indexedMemory k disp => by
    rw [operandText, List.append_assoc "[".toList]
    exact brackets_isLineChar (append_isLineChar (baseText_isLineChar k) (dispText_isLineChar disp))
  | .immediate _ v => decNat_isLineChar v.toNat

theorem render_isLineChar (r : DecodedInstruction) : ∀ c ∈ render r, IsLineChar c := by
  have hmov : ∀ c ∈ "mov ".toList, IsLineChar c := isLineChar_of_all (by decide)
  have hcomma : ∀ c ∈ ", ".toList, IsLineChar c := isLineChar_of_all (by decide)
  have hdst := append_isLineChar hmov (operandText_isLineChar r.dst)
  rw [render_eq]
  exact append_isLineChar (append_isLineChar hdst hcomma) (operandText_isLineChar r.src)

/-- Settles O52: it holds of every record, an instruction's or not. -/
theorem lineCharacters : Obligations.LineCharacters := fun i => render_isLineChar (recordOf i)

/-! ### The text of a stream -/

theorem lineFeed_notMem_render (r : DecodedInstruction) : '\n' ∉ render r := fun h =>
  absurd (render_isLineChar r '\n' h) (by decide)

theorem count_lineFeed_line (r : DecodedInstruction) : (render r ++ ['\n']).count '\n' = 1 := by
  rw [List.count_append, List.count_eq_zero_of_not_mem (lineFeed_notMem_render r)]
  rfl

/-- One line feed for each record, and none inside a line. -/
theorem count_lineFeed_lines (rs : List DecodedInstruction) :
    (rs.flatMap (fun r => render r ++ ['\n'])).count '\n' = rs.length := by
  induction rs with
  | nil => rfl
  | cons r rs ih => rw [List.flatMap_cons, List.count_append, count_lineFeed_line, ih, List.length_cons, Nat.add_comm]

theorem streamText_eq (B : List Byte) :
    streamText B = "bits 16\n".toList ++ (decodeStream B).1.flatMap (fun r => render r ++ ['\n']) := by
  rw [streamText, List.flatMap_def]
  rfl

/-- The last character is the last record's line feed, or the header's when there is no record. -/
theorem getLast?_header_lines (rs : List DecodedInstruction) :
    ("bits 16\n".toList ++ rs.flatMap (fun r => render r ++ ['\n'])).getLast? = some '\n' := by
  obtain rfl | ⟨init, r, rfl⟩ := rs.eq_nil_or_concat
  · rfl
  · rw [List.concat_eq_append, List.flatMap_append, List.flatMap_singleton, ← List.append_assoc, ← List.append_assoc,
      List.getLast?_concat]

/-- Settles O53: the line feeds are the driver's own, since a line holds none. -/
theorem streamTextIsHeaderAndOneLineEach : Obligations.StreamTextIsHeaderAndOneLineEach := by
  refine ⟨rfl, rfl, fun B => ⟨streamText_eq B, rfl, ?_, ?_⟩⟩
  · rw [streamText_eq, List.count_append, count_lineFeed_lines, Nat.add_comm]
    rfl
  · rw [streamText_eq, getLast?_header_lines]

end Sys2Proof.Machine

/-! ## Proofs of the exceptions family: how a run stops

Two steps raise an error, one for each kind, and one ends the run; each enters a final state, where no step follows
(60_exceptions.md R148 to R153). -/

namespace Sys2Proof.Machine

/-- The classes are exhaustive, so the third one is what the ranges of the two families leave. -/
theorem cls_eq_none_iff_range (b : Byte) :
    cls b = .none ↔ ¬ (0x88 ≤ b.toNat ∧ b.toNat ≤ 0x8B) ∧ ¬ (0xB0 ≤ b.toNat ∧ b.toNat ≤ 0xBF) := by
  rw [← cls_eq_rm_iff_range, ← cls_eq_imm_iff_range]
  cases cls b <;> simp

theorem step_of_unrecognized {s : State} {b : Byte} (hop : s.st = .op) (hev : s.event = .byte b) (hc : cls b = .none) :
    step s = .next ((s.consume b).raiseError .unrecognizedOpcode b) := by
  rw [step_eq_of_byte hev, stepByte_of_unrecognized hop hc]

theorem step_of_truncated {s : State} (hin : s.st.inFlight = true) (hev : s.event = .eos) :
    step s = .next (s.raiseError .truncatedInstruction s.opc) := by
  rw [step_eq_of_eos hev, stepEos_of_inFlight hin]

theorem step_of_end {s : State} (hop : s.st = .op) (hev : s.event = .eos) : step s = .next s.endRun := by
  rw [step_eq_of_eos hev, stepEos_of_op hop]

theorem step_ne_next_of_final {s : State} (h : s.st.isFinal = true) (u : State) : step s ≠ .next u := by
  obtain ⟨f, hf⟩ := step_final h
  simp [hf]

/-- Every step that emits an error: it consumed an unrecognized opcode byte, or `EOS` with an instruction in flight. -/
theorem step_error_cases {s t : State} {k : ErrKind} {b : Byte} (h : step s = .next t) (ho : t.out = .error k b) :
    (k = .unrecognizedOpcode ∧ s.st = .op ∧ s.event = .byte b ∧ cls b = .none) ∨
    (k = .truncatedInstruction ∧ s.st.inFlight = true ∧ s.event = .eos ∧ b = s.opc) := by
  obtain ⟨c, hev, hb⟩ | ⟨hev, he⟩ := step_cases h
  · obtain ⟨_, -, rfl⟩ | ⟨_, -, -, rfl⟩ | ⟨hop, hc, rfl⟩ := stepByte_next hb
    · simp at ho
    · simp at ho
    · obtain ⟨rfl, rfl⟩ := OutEvent.error.inj ho
      exact .inl ⟨rfl, hop, hev, hc⟩
  · obtain ⟨-, rfl⟩ | ⟨hin, rfl⟩ := stepEos_next he
    · simp at ho
    · obtain ⟨rfl, rfl⟩ := OutEvent.error.inj ho
      exact .inr ⟨rfl, hin, hev, rfl⟩

/-- The nine states of 60_exceptions.md R149. -/
theorem inFlight_iff_mem (st : SeqState) :
    st.inFlight = true ↔ st ∈ [SeqState.modrm, .d8, .d16L, .d16H, .a16L, .a16H, .i8, .i16L, .i16H] := by
  cases st <;> decide

/-- Settles O22: the byte is of neither family's range, so its class is the third one. -/
theorem unrecognizedOpcodeIsRaised : Obligations.UnrecognizedOpcodeIsRaised := by
  refine ⟨fun s b hop hev hrm himm => ?_, fun s t b h ho => ?_⟩
  · have hc : cls b = .none := (cls_eq_none_iff_range b).mpr ⟨hrm, himm⟩
    exact ⟨_, step_of_unrecognized hop hev hc, rfl, rfl, step_ne_next_of_final rfl⟩
  · obtain ⟨-, hraised⟩ | ⟨hk, -⟩ := step_error_cases h ho
    · exact hraised
    · contradiction

/-- Settles O23: raising the error writes `st` and `out` alone, so the latches stay. -/
theorem truncatedInstructionIsRaised : Obligations.TruncatedInstructionIsRaised := by
  refine ⟨fun s hev hst => ?_, fun s t b h ho => ?_⟩
  · have hin := (inFlight_iff_mem s.st).mpr hst
    exact ⟨_, step_of_truncated hin hev, rfl, rfl, rfl, rfl, rfl⟩
  · obtain ⟨hk, -⟩ | ⟨-, hin, hev, hb⟩ := step_error_cases h ho
    · contradiction
    · exact ⟨hev, (inFlight_iff_mem s.st).mp hin, hb⟩

/-- Settles O24: `EOS` in `OP` ends the run. -/
theorem endOfStreamAtABoundaryIsNoError : Obligations.EndOfStreamAtABoundaryIsNoError := fun _ => step_of_end

/-- A step that emits `End` or an error enters a final state. -/
theorem step_isFinal_of_out {s t : State} (h : step s = .next t)
    (ho : t.out = .endOfStream ∨ ∃ kind b, t.out = .error kind b) : t.st.isFinal = true := by
  obtain ⟨b, -, hb⟩ | ⟨-, he⟩ := step_cases h
  · obtain ⟨_, -, rfl⟩ | ⟨_, -, -, rfl⟩ | ⟨-, -, rfl⟩ := stepByte_next hb
    · simp at ho
    · simp at ho
    · rfl
  · exact stepEos_final he

/-- The first output is the first step's, the others are those of the run from the state it answers. -/
theorem runSteps_eq_cons {k : Nat} {s : State} {e : OutEvent} {es : List OutEvent} (h : (runSteps k s).1 = e :: es) :
    ∃ j t, step s = .next t ∧ t.out = e ∧ (runSteps j t).1 = es := by
  cases k with
  | zero => contradiction
  | succ j =>
    rw [runSteps] at h
    split at h
    · next t ht =>
      obtain ⟨hout, hrest⟩ := List.cons.inj h
      exact ⟨j, t, ht, hout, hrest⟩
    · contradiction
    · contradiction

/-- Settles O40, by induction on the outputs before the last one. -/
theorem errorOrEndComesLastInARun : Obligations.ErrorOrEndComesLastInARun := by
  intro k s es fs e h hlast
  induction es generalizing k s with
  | nil =>
    obtain ⟨j, t, ht, rfl, hrest⟩ := runSteps_eq_cons h
    rw [← hrest, runSteps_final j (step_isFinal_of_out ht hlast)]
  | cons _ es ih =>
    obtain ⟨j, t, -, -, hrest⟩ := runSteps_eq_cons h
    exact ih j t hrest

end Sys2Proof.Machine

/-! ## Proofs of the reset family: the reset edge and the first byte after it

Reset puts the sequencer in `OP` with nothing in flight, so the first byte presented is taken as an opcode byte
(70_reset_and_hazards.md R166 to R168). -/

namespace Sys2Proof.Machine

@[simp] theorem applyReset_inReady (s : State) : s.applyReset.inReady = true := rfl
@[simp] theorem applyReset_inflight (s : State) : s.applyReset.inflight = [] := rfl

/-- Settles O29: the edge is `applyReset`, whatever the other pins present. -/
theorem resetEdgeSetsEveryElement : Obligations.ResetEdgeSetsEveryElement := fun s _ hr =>
  ⟨s.applyReset, clockEdge_of_rst hr s, applyReset_st s, applyReset_pos s, applyReset_opc s, applyReset_modrm s,
    applyReset_lo s, rfl, applyReset_inReady s, applyReset_inflight s, applyReset_source s⟩

theorem event_loadSource_cons (s : State) (b : Byte) (bs : List Byte) : (s.loadSource (b :: bs)).event = .byte b :=
  event_of_remaining_cons (rest := bs) (ofBytes_wf _) (by simp [State.remaining])

theorem afterOpcode_of_rm {b : Byte} (hc : cls b = .rm) : afterOpcode b = some .modrm := by
  simp [afterOpcode, hc]

theorem afterOpcode_of_imm {b : Byte} (hc : cls b = .imm) :
    afterOpcode b = some (if fieldWi b = 0#1 then .i8 else .i16L) := by
  simp [afterOpcode, hc]

/-- At a boundary, a byte of either family is latched as the opcode and the rest of its instruction is awaited. -/
theorem step_of_opcode {s : State} {b : Byte} {next : SeqState} (hop : s.st = .op) (hev : s.event = .byte b)
    (ha : afterOpcode b = some next) :
    ∃ t, step s = .next t ∧ t.opc = b ∧ t.st = next ∧ t.out = .none ∧ t.pos = s.pos + 1 := by
  have hawait : awaitAfter b s = some next := by simpa [awaitAfter, hop] using ha
  refine ⟨_, step_of_await hev hawait, ?_, rfl, rfl, consume_pos s b (by simp [hop, SeqState.isFinal])⟩
  simp [consume_opc, hop]

/-- Settles O31, by the class of the first byte. -/
theorem firstByteAfterResetIsAnOpcode : Obligations.FirstByteAfterResetIsAnOpcode := by
  intro s b bs
  have hop := loadSource_st s (b :: bs)
  have hev := event_loadSource_cons s b bs
  obtain hc | hc | hc := cls_cases b
  · obtain ⟨t, ht, hopc, hst, hout, hpos⟩ := step_of_opcode hop hev (afterOpcode_of_rm hc)
    exact ⟨t, ht, hopc, by simp [hc, hst, hout, hpos]⟩
  · obtain ⟨t, ht, hopc, hst, hout, hpos⟩ := step_of_opcode hop hev (afterOpcode_of_imm hc)
    exact ⟨t, ht, hopc, by simp +contextual [hc, hst, hout, hpos]⟩
  · exact ⟨_, step_of_unrecognized hop hev hc, by simp [consume_opc], by simp [hc]⟩

end Sys2Proof.Machine
